-- ==== Sys2Proof/Word.lean ====
section
/-! DEFINITION. The widths of the MBC's values. Every value is an unsigned integer (00_scope.md R11). -/

namespace Sys2Proof

/-- A byte of a frame, a buffer or an 8-bit field. -/
abbrev Byte := BitVec 8

/-- A 16-bit register, port value or command operand (R8 REGISTER_BITS, CRC_BITS). -/
abbrev Half := BitVec 16

/-- A 32-bit snapshot value, held in two registers (R53). -/
abbrev Word := BitVec 32

/-- A 48-bit command word (30_encoding.md R70). -/
abbrev Command := BitVec 48

end Sys2Proof
end

