-- ==== Sys2Proof/Config.lean ====
section
/-! DEFINITION. What a realisation fixes before any command (00_scope.md R9, 70_reset_and_hazards.md R231).
The two parameters themselves are data of the state (`Sys2Proof.Machine.Params`), so that a statement about
every state is a statement about every value of them; here stand the bounds and the values `State.reset` takes
(log entry 2). The third parameter, CMD_HANDSHAKE, is read by no rule (R232) and is left out (log entry 11). -/

namespace Sys2Proof.Config

/-- The least RX_CAP a model may have: a full-layout read response (R9). -/
def rxCapMin : Nat := 25

/-- The greatest RX_CAP a model may have: RXLEN is read through 16 bits (R9). -/
def rxCapMax : Nat := 65535

/-- DESIGN CHOICE (log entry 2), unsafe: RX_CAP at `State.reset`, the value that R9 recommends. -/
def rxCapRecommended : Nat := 256

/-- STRICT_CRC_READ at `State.reset`: the default R9 states. -/
def strictCrcReadDefault : Bool := false

end Sys2Proof.Config
end

