-- ==== Sys2Proof/Machine/State.lean ====
section
/-! DEFINITION. The MBC's state: every element of 10_state.md R22–R30 and the parameters of R33, as plain data; the
reasons a step can stop; the state after reset (R34). Beside the spec's elements it holds one field of the model's
own, `hostEvents` (log entry 1). -/

namespace Sys2Proof.Machine

/-- CTX_OP (R25): which request kind was last built. Codes 5–7 are never written (log entry 6). -/
inductive CtxOp where
  /-- 0: no context. -/
  | none
  /-- 1: read registers, function code 0x04. -/
  | rd
  /-- 2: write address, 0x06. -/
  | wa
  /-- 3: read address, 0x03. -/
  | ra
  /-- 4: reset energy, 0x42. -/
  | re
  deriving DecidableEq, Repr

/-- STATUS.CAUSE (60_exceptions.md R210). Codes 10–15 are never written (log entry 6). -/
inductive Cause where
  /-- 0 NONE: no failure. -/
  | none
  /-- 1 NO_DATA: VALIDATE saw fewer than 4 bytes. -/
  | noData
  /-- 2 CRC_MISMATCH: VALIDATE required the CRC and it differs. -/
  | crcMismatch
  /-- 3 FC_MISMATCH: VALIDATE read another function code. -/
  | fcMismatch
  /-- 4 ADDR_MISMATCH: VALIDATE read another address. -/
  | addrMismatch
  /-- 5 NO_CONTEXT: VALIDATE without a built request. -/
  | noContext
  /-- 6 INVALID_ARGUMENT: a rejected BUILD_WA. -/
  | invalidArgument
  /-- 7 ILLEGAL_COMMAND: an undefined opcode. -/
  | illegalCommand
  /-- 8 CRC_ADVISORY: a read accepted with a differing CRC. -/
  | crcAdvisory
  /-- 9 SHORT_PAYLOAD: an address read accepted with less than two payload bytes. -/
  | shortPayload
  deriving DecidableEq, Repr

/-- The parameters of a model instance (R33): no command and no reset changes them. -/
structure Params where
  /-- RX_CAP: the receive buffer's capacity in bytes. -/
  rxCap : Nat
  /-- STRICT_CRC_READ: whether a CRC mismatch rejects a read-data response too. -/
  strictCrcRead : Bool
  deriving DecidableEq, Repr

/-- The context registers (R25). -/
structure Context where
  op : CtxOp
  expAddr : Byte
  expFc : Byte
  expLen : BitVec 18
  winStart : Half
  deriving DecidableEq, Repr

/-- The verdict registers (R26): V_ADDR, V_FC, V_RXCRC, V_CALCCRC, PL_LEN. -/
structure Verdict where
  addr : Byte
  fc : Byte
  rxCrc : Half
  calcCrc : Half
  plLen : Half
  deriving DecidableEq, Repr

/-- The fields of STATUS (R28) as separate Booleans, as R35 allows; `statusWord` composes the word. -/
structure Status where
  nodata : Bool
  crcok : Bool
  fcok : Bool
  addrok : Bool
  accept : Bool
  vdone : Bool
  addrValid : Bool
  alarm : Bool
  errArg : Bool
  errIll : Bool
  rxDrop : Bool
  cause : Cause
  deriving DecidableEq, Repr

/-- The snapshot registers (R29), raw unsigned integers. -/
structure Snapshot where
  rawV : Half
  rawI : Word
  rawP : Word
  rawE : Word
  rawF : Half
  rawPf : Half
  rawAl : Half
  deriving DecidableEq, Repr

/-- The contents of RXBUF: the bytes written so far, as (index, byte) pairs. An index that is not listed holds no
value (log entry 3). -/
abbrev Memory := List Host.Cell

/-- What the host does to the MBC (00_scope.md R17): it issues a command word (20_memory.md R60), or power-on or a
hardware reset arrives (70_reset_and_hazards.md R230). A register read changes nothing and is no event (log entry 9). -/
inductive HostEvent where
  /-- A command word is issued. -/
  | command (w : Command)
  /-- The unit is reset from outside. -/
  | reset
  deriving DecidableEq, Repr

/-- The canonical form of a `Memory`: indices strictly rising, so that equal contents are equal lists. -/
def Memory.wf : Memory → Bool
  | [] => true
  | [_] => true
  | c :: d :: rest => decide (c.1 < d.1) && Memory.wf (d :: rest)

/-- The state record of R35, with the parameters of R33. -/
structure State where
  /-- RX_CAP and STRICT_CRC_READ (R33). -/
  params : Params
  /-- CRC, the accumulator (R22). -/
  crc : Half
  /-- TXBUF[0..8) (R23). -/
  txbuf : Vector Byte 8
  /-- TXLEN (R23). -/
  txlen : BitVec 4
  /-- RXBUF[0..RX_CAP) (R24). -/
  rxbuf : Memory
  /-- RXLEN, a count (R24). -/
  rxlen : Nat
  /-- CTX_OP, EXP_ADDR, EXP_FC, EXP_LEN, WIN_START (R25). -/
  ctx : Context
  /-- V_ADDR, V_FC, V_RXCRC, V_CALCCRC, PL_LEN (R26). -/
  verdict : Verdict
  /-- STATUS (R28). -/
  status : Status
  /-- ADDR_RESULT (R30). -/
  addrResult : Half
  /-- RAW_V, RAW_I, RAW_P, RAW_E, RAW_F, RAW_PF, RAW_AL (R29). -/
  snap : Snapshot
  /-- The MODEL's own field (log entry 1): what the host does from here on, oldest first. The MBC stores none of it
  (20_memory.md R62) and no command changes it. -/
  hostEvents : List HostEvent
  deriving DecidableEq, Repr

/-- Why a step stops. The MBC itself has no trap and completes every command (60_exceptions.md R213). Both reasons
come from 20_memory.md R52 and 10_state.md R24, and no state that keeps the invariants of Safety.lean meets either. -/
inductive Fault where
  /-- A read or write of RXBUF at or above RX_CAP (R52: it 'has no meaning', a model may make it a fault). Raised by
  `memRead` and `memWrite`. Safe: the model stops where the spec gives no effect. -/
  | outsideBuffer
  /-- A read of an RXBUF byte that no RX_PUSH has written since reset (R24, R34: unspecified). Raised by `memRead`.
  Safe: the model stops and picks no value. -/
  | unwrittenByte
  deriving DecidableEq, Repr

/-- Why the model gives an instruction no meaning. -/
inductive Refusal where
  /-- An instruction without a meaning in this model; raised by an arm of `exec`. Safe: nothing can be proved of it.
  Every command of the table has its meaning, so no arm raises it. -/
  | notModelled (mnemonic : String)
  deriving DecidableEq, Repr

/-- The context after reset: NONE and zeros (R34). -/
def Context.empty : Context := ⟨.none, 0, 0, 0, 0⟩

/-- The verdict registers cleared (R34, 41_frame_build.md R121). -/
def Verdict.empty : Verdict := ⟨0, 0, 0, 0, 0⟩

/-- STATUS = 0x0000 (R34). -/
def Status.empty : Status :=
  ⟨false, false, false, false, false, false, false, false, false, false, false, .none⟩

/-- The all-zero snapshot (R34). -/
def Snapshot.empty : Snapshot := ⟨0, 0, 0, 0, 0, 0, 0⟩

/-- The state after reset of an instance with parameters `p`, while the host goes on with `events` (R34). RXBUF's
contents are unspecified: nothing is listed (log entry 3). -/
def State.resetWith (p : Params) (events : List HostEvent) : State where
  params := p
  crc := 0xFFFF
  txbuf := #v[0, 0, 0, 0, 0, 0, 0, 0]
  txlen := 0
  rxbuf := []
  rxlen := 0
  ctx := Context.empty
  verdict := Verdict.empty
  status := Status.empty
  addrResult := 0
  snap := Snapshot.empty
  hostEvents := events

/-- The machine right after reset (R34, R230), with the parameters of log entry 2 and no command issued yet. -/
def State.reset : State :=
  State.resetWith ⟨Config.rxCapRecommended, Config.strictCrcReadDefault⟩ []

end Sys2Proof.Machine
end

