-- ==== Sys2Proof/Machine/Ops.lean ====
section
/-! DEFINITION. The named operations the commands share: byte helpers (00_scope.md R11), the memory primitives
(20_memory.md R52), `raise` (00_scope.md R12), reset (70_reset_and_hazards.md R230) and the host's next event
(20_memory.md R60). -/

namespace Sys2Proof.Machine

/-- What a command's meaning answers. -/
abbrev Result := Host.Outcome State Fault Refusal

/-- `lo8(v) = v[7:0]` (R11). -/
def lo8 (v : Half) : Byte := v.extractLsb' 0 8

/-- `hi8(v) = v[15:8]` (R11). -/
def hi8 (v : Half) : Byte := v.extractLsb' 8 8

/-- `be16(a, b) = (a << 8) | b` (R11). -/
def be16 (a b : Byte) : Half := (a.setWidth 16 <<< 8) ||| b.setWidth 16

/-- Byte `i` of a byte sequence. Every use has `i < len(s)`; the 0x00 beyond it is never used (log entry 7). -/
def byteAt (s : List Byte) (i : Nat) : Byte := s.getD i 0

/-- `buf[a..b)` (R10): empty when `b ≤ a`. -/
def bytesFrom (s : List Byte) (a b : Nat) : List Byte := (s.drop a).take (b - a)

/-- The value listed at index `i`, if any. -/
def memLookup : Memory → Nat → Option Byte
  | [], _ => none
  | c :: m, i => if c.1 = i then some c.2 else memLookup m i

/-- The contents with `v` at index `i`, kept in canonical form. -/
def memInsert : Memory → Nat → Byte → Memory
  | [], i, v => [(i, v)]
  | c :: m, i, v =>
    if i < c.1 then (i, v) :: c :: m
    else if c.1 = i then (i, v) :: m
    else c :: memInsert m i v

/-- `MemRead(RXBUF, i)` (R52) of a buffer of capacity `cap`. An index outside it has no meaning (log entry 4), and a
byte nothing has written has no value (log entry 3): both fault. -/
def memRead (cap : Nat) (m : Memory) (i : Nat) : Except Fault Byte :=
  if i < cap then
    match memLookup m i with
    | some b => .ok b
    | none => .error .unwrittenByte
  else .error .outsideBuffer

/-- `MemWrite(RXBUF, i, v)` (R52). An index outside the buffer faults (log entry 4). -/
def memWrite (cap : Nat) (m : Memory) (i : Nat) (v : Byte) : Except Fault Memory :=
  if i < cap then .ok (memInsert m i v) else .error .outsideBuffer

/-- The `n` bytes from index `i` on, read one by one in index order. -/
def memReadRange (cap : Nat) (m : Memory) (i : Nat) : Nat → Except Fault (List Byte)
  | 0 => .ok []
  | n + 1 =>
    match memRead cap m i with
    | .error e => .error e
    | .ok b =>
      match memReadRange cap m (i + 1) n with
      | .error e => .error e
      | .ok bs => .ok (b :: bs)

/-- The model's read of one byte of RXBUF. -/
def rxByte (s : State) (i : Nat) : Except Fault Byte := memRead s.params.rxCap s.rxbuf i

/-- `RXBUF[0..RXLEN)`, the response bytes pushed since the last clear (R24). -/
def rxBytes (s : State) : Except Fault (List Byte) :=
  memReadRange s.params.rxCap s.rxbuf 0 s.rxlen

/-- A command that reads `RXBUF[0..RXLEN)` and completes with the state `k` gives for it. -/
def withRxBytes (s : State) (k : List Byte → State) : Result :=
  match rxBytes s with
  | .ok r => .next (k r)
  | .error e => .fault e

/-- `for i in 0..7: MemWrite(TXBUF, i, (i < len(f)) ? f[i] : 0x00)` (41_frame_build.md R121). -/
def txImage (f : List Byte) : Vector Byte 8 :=
  #v[byteAt f 0, byteAt f 1, byteAt f 2, byteAt f 3, byteAt f 4, byteAt f 5, byteAt f 6, byteAt f 7]

/-- `TXBUF[0..TXLEN)`, the request frame the host sends (R23). -/
def txFrame (s : State) : List Byte := s.txbuf.toList.take s.txlen.toNat

/-- `raise <Cause>`: write the cause code and nothing else. It never transfers control: the MBC has no traps (R12,
60_exceptions.md R213), so there is no return from it either (R214). -/
def raise (c : Cause) (s : State) : State := { s with status := { s.status with cause := c } }

/-- The reset state of this instance: every element of 10_state.md R34 at its reset value, the parameters kept (R33),
the host's list untouched (log entry 1). -/
def resetState (s : State) : State := State.resetWith s.params s.hostEvents

/-- A power-on or hardware reset of the instance (R230), from outside: the same state as SRST gives (log entry 10). -/
def hardwareReset (s : State) : State := resetState s

/-- What the host does next and the state while it takes effect, `none` when the host does nothing (R60, R232). A
command word is consumed as it is issued (R50). -/
def takeEvent (s : State) : Option (HostEvent × State) :=
  match s.hostEvents with
  | [] => none
  | e :: es => some (e, { s with hostEvents := es })

/-- The state in which the host issues `w` next, before everything else (log entry 1). -/
def issueNext (w : Command) (s : State) : State := { s with hostEvents := .command w :: s.hostEvents }

end Sys2Proof.Machine
end

