-- ==== Sys2Proof/Machine/Crc16.lean ====
section
/-! DEFINITION. CRC-16/Modbus as pure functions (40_crc.md R100–R102). -/

namespace Sys2Proof.Machine

/-- One of the eight iterations of R100: a logical shift right, with the reflected polynomial 0xA001 XORed in when
bit 0 was set. -/
def crcShift (r : Half) : Half := if r.getLsbD 0 then (r >>> 1) ^^^ 0xA001#16 else r >>> 1

/-- `n` iterations of `crcShift`. -/
def crcShifts : Nat → Half → Half
  | 0, r => r
  | n + 1, r => crcShifts n (crcShift r)

/-- `Crc16Step(c, b)` (R100). -/
def crc16Step (c : Half) (b : Byte) : Half := crcShifts 8 (c ^^^ b.setWidth 16)

/-- The CRC initial value (R101). -/
def crcInitial : Half := 0xFFFF#16

/-- `Crc16(s)` (R101): no reflection step and no final XOR. -/
def crc16 (s : List Byte) : Half := s.foldl crc16Step crcInitial

/-- The CRC output, low byte first (R102). -/
def crcBytes (c : Half) : List Byte := [lo8 c, hi8 c]

end Sys2Proof.Machine
end

