-- ==== Sys2Proof/Machine/Operands.lean ====
section
/-! DEFINITION. How a build command's operands become a request frame (30_encoding.md R78) and how many response
bytes it expects (R79), and the one operand check of the MBC (41_frame_build.md R124). -/

namespace Sys2Proof.Machine

/-- `BuildFrame(p)` (R120): the prefix and its CRC, low byte first. -/
def buildFrame (p : List Byte) : List Byte := p ++ crcBytes (crc16 p)

/-- The function code each request kind puts in its frame (R4, R78); no kind, no code (R25). -/
def functionCode : CtxOp → Byte
  | .none => 0x00
  | .rd => 0x04
  | .wa => 0x06
  | .ra => 0x03
  | .re => 0x42

/-- Read registers: start register and count, big-endian (R78). -/
def prefixRd (a : Byte) (s c : Half) : List Byte := [a, functionCode .rd, hi8 s, lo8 s, hi8 c, lo8 c]

/-- Write single register: register index 2, the new address big-endian (R78). -/
def prefixWa (a : Byte) (n : Half) : List Byte := [a, functionCode .wa, 0x00, 0x02, hi8 n, lo8 n]

/-- Read holding register: register index 2, one register (R78). -/
def prefixRa (a : Byte) : List Byte := [a, functionCode .ra, 0x00, 0x02, 0x00, 0x01]

/-- Reset energy: no payload (R78). -/
def prefixRe (a : Byte) : List Byte := [a, functionCode .re]

/-- The expected length of a read-registers response, `2·C + 5` in 18 bits (R122). -/
def expectedRd (c : Half) : BitVec 18 := 2#18 * c.setWidth 18 + 5#18

/-- The expected length of a write-address response (R123). -/
def expectedWa : BitVec 18 := 8

/-- The expected length of a read-address response (R126). -/
def expectedRa : BitVec 18 := 7

/-- The expected length of a reset-energy response (R127). -/
def expectedRe : BitVec 18 := 4

/-- `ValidNewAddr(N, A)` (R124). -/
def validNewAddr (n : Half) (a : Byte) : Bool :=
  decide (0x0001#16 ≤ n) && decide (n ≤ 0x00F7#16) && n != a.setWidth 16 && n != 0x00F8#16

end Sys2Proof.Machine
end

