-- ==== Sys2Proof/Machine/Flags.lean ====
section
/-! DEFINITION. The flags: the STATUS word (10_state.md R28), the cause codes (60_exceptions.md R210), and the checks
whose outcomes VALIDATE writes into the flags (42_frame_validate.md R153–R156). -/

namespace Sys2Proof.Machine

/-- The code of a cause (R210). -/
def causeCode : Cause → BitVec 4
  | .none => 0
  | .noData => 1
  | .crcMismatch => 2
  | .fcMismatch => 3
  | .addrMismatch => 4
  | .noContext => 5
  | .invalidArgument => 6
  | .illegalCommand => 7
  | .crcAdvisory => 8
  | .shortPayload => 9

/-- The code of a request kind (R25). -/
def ctxCode : CtxOp → BitVec 3
  | .none => 0
  | .rd => 1
  | .wa => 2
  | .ra => 3
  | .re => 4

/-- A flag at bit `n` of a 16-bit word. -/
def flagBit (n : Nat) (b : Bool) : Half := if b then 1#16 <<< n else 0#16

/-- The STATUS word (R28). Bit 11 reads 0. -/
def statusWord (st : Status) : Half :=
  flagBit 0 st.nodata ||| flagBit 1 st.crcok ||| flagBit 2 st.fcok ||| flagBit 3 st.addrok |||
  flagBit 4 st.accept ||| flagBit 5 st.vdone ||| flagBit 6 st.addrValid ||| flagBit 7 st.alarm |||
  flagBit 8 st.errArg ||| flagBit 9 st.errIll ||| flagBit 10 st.rxDrop |||
  ((causeCode st.cause).setWidth 16 <<< 12)

/-- The alarm: true exactly for 0xFFFF (43_decoder.md R182). -/
def alarmOf (al : Half) : Bool := al == 0xFFFF#16

/-- What `Split` returns (R153). -/
structure SplitResult where
  nodata : Bool
  addr : Byte
  fc : Byte
  plen : Nat
  rxCrc : Half
  calcCrc : Half
  crcok : Bool
  deriving DecidableEq, Repr

/-- MIN_RESPONSE (00_scope.md R8). -/
def minResponse : Nat := 4

/-- `Split(r)` (R153). Byte 2 is skipped; the payload is `r[3..n−2)`. -/
def splitFrame (r : List Byte) : SplitResult :=
  let n := r.length
  if n < minResponse then ⟨true, 0, 0, 0, 0, 0, false⟩
  else
    let rx := be16 (byteAt r (n - 1)) (byteAt r (n - 2))
    let c := crc16 (bytesFrom r 0 (n - 2))
    ⟨false, byteAt r 0, byteAt r 1, n - 5, rx, c, c == rx⟩

/-- `Accept` (R155): the success condition of each operation; `strict` is STRICT_CRC_READ. -/
def acceptOf (strict : Bool) (op : CtxOp) (nodata crcok fok aok : Bool) : Bool :=
  match op with
  | .none => false
  | .rd => !nodata && fok && aok && (crcok || !strict)
  | .wa => !nodata && crcok && fok && aok
  | .ra => !nodata && crcok && fok && aok
  | .re => !nodata && crcok && fok && aok

/-- `Cause` (R156): the one cause VALIDATE reports, in the order of the rule. -/
def causeOf (strict : Bool) (op : CtxOp) (nodata crcok fok aok : Bool) (plen : Nat) : Cause :=
  if nodata then .noData
  else if op = .none then .noContext
  else if (op ≠ .rd ∨ strict) ∧ !crcok then .crcMismatch
  else if !fok then .fcMismatch
  else if !aok then .addrMismatch
  else if op = .rd ∧ !crcok then .crcAdvisory
  else if op = .ra ∧ plen < 2 then .shortPayload
  else .none

end Sys2Proof.Machine
end

