-- ==== Sys2Proof/Machine/Port.lean ====
section
/-! DEFINITION. The host's read-only register port (10_state.md R27): a total function of the state (R35). A read has
no side effect, so it is no step (log entry 9). -/

namespace Sys2Proof.Machine

/-- The 16-bit value the host reads at an 8-bit register address. Every address not listed reads 0x0000. -/
def readPort (s : State) (addr : Byte) : Half :=
  match addr with
  | 0x00#8 => statusWord s.status
  | 0x01#8 => s.crc
  | 0x02#8 => s.txlen.setWidth 16
  | 0x03#8 => BitVec.ofNat 16 s.rxlen
  | 0x04#8 => (s.ctx.expFc.setWidth 16 <<< 8) ||| (ctxCode s.ctx.op).setWidth 16
  | 0x05#8 => s.ctx.expAddr.setWidth 16
  | 0x06#8 => s.ctx.expLen.extractLsb' 0 16
  | 0x07#8 => (s.ctx.expLen.extractLsb' 16 2).setWidth 16
  | 0x08#8 => s.ctx.winStart
  | 0x09#8 => (s.verdict.fc.setWidth 16 <<< 8) ||| s.verdict.addr.setWidth 16
  | 0x0A#8 => s.verdict.rxCrc
  | 0x0B#8 => s.verdict.calcCrc
  | 0x0C#8 => s.verdict.plLen
  | 0x0D#8 => s.addrResult
  | 0x10#8 => s.snap.rawV
  | 0x11#8 => s.snap.rawI.extractLsb' 0 16
  | 0x12#8 => s.snap.rawI.extractLsb' 16 16
  | 0x13#8 => s.snap.rawP.extractLsb' 0 16
  | 0x14#8 => s.snap.rawP.extractLsb' 16 16
  | 0x15#8 => s.snap.rawE.extractLsb' 0 16
  | 0x16#8 => s.snap.rawE.extractLsb' 16 16
  | 0x17#8 => s.snap.rawF
  | 0x18#8 => s.snap.rawPf
  | 0x19#8 => s.snap.rawAl
  | 0x20#8 => s.txbuf[0].setWidth 16
  | 0x21#8 => s.txbuf[1].setWidth 16
  | 0x22#8 => s.txbuf[2].setWidth 16
  | 0x23#8 => s.txbuf[3].setWidth 16
  | 0x24#8 => s.txbuf[4].setWidth 16
  | 0x25#8 => s.txbuf[5].setWidth 16
  | 0x26#8 => s.txbuf[6].setWidth 16
  | 0x27#8 => s.txbuf[7].setWidth 16
  | _ => 0x0000#16

end Sys2Proof.Machine
end

