-- ==== Sys2Proof/Syntax.lean ====
section
/-! DEFINITION. The commands of spec/opcode_table.json, one constructor per row, with the fields 30_encoding.md
R72 says the command uses. Operands are bit vectors of the field's width, so every term of `Instr` is a command the
host can issue. -/

namespace Sys2Proof

/-- A command with its operands (R72). An opcode of no row is not an `Instr`: the decoder rejects it by name. -/
inductive Instr where
  /-- NOP, OPC 0x00 (44_control.md R200). -/
  | nop
  /-- CRC_INIT, OPC 0x01 (40_crc.md R103). -/
  | crcInit
  /-- CRC_BYTE, OPC 0x02, the data byte B (R104). -/
  | crcByte (b : Byte)
  /-- BUILD_RA, OPC 0x03, the address A (41_frame_build.md R126). -/
  | buildRa (a : Byte)
  /-- BUILD_RD, OPC 0x04, the address A, the start register S (field H), the register count C (field L) (R122). -/
  | buildRd (a : Byte) (s : Half) (c : Half)
  /-- BUILD_WA, OPC 0x06, the old address A, the new address N (field L) (R123). -/
  | buildWa (a : Byte) (n : Half)
  /-- RX_CLEAR, OPC 0x10 (42_frame_validate.md R150). -/
  | rxClear
  /-- RX_PUSH, OPC 0x11, the received byte B (R151). -/
  | rxPush (b : Byte)
  /-- VALIDATE, OPC 0x20 (R152). -/
  | validate
  /-- DECODE, OPC 0x21, the start register S (field L) (43_decoder.md R184). -/
  | decode (s : Half)
  /-- BUILD_RE, OPC 0x42, the address A (41_frame_build.md R127). -/
  | buildRe (a : Byte)
  /-- SRST, OPC 0xFF (44_control.md R201). -/
  | srst
  deriving DecidableEq, Repr

end Sys2Proof
end

