-- ==== Sys2Proof/WellFormed.lean ====
section
/-! DEFINITION. Well-formed command words. An `Instr` carries its ranges in its operands' types, so what can be ill
formed is the WORD: software should write the fields a command does not use as zero (30_encoding.md R73). The MBC
executes an ill-formed word all the same; the check says which words an assembler may write (R75). -/

namespace Sys2Proof

/-- The bits of a command word that the command uses: OPC and the fields of R72. -/
def usedMask : Instr → Command
  | .nop => 0xFF0000000000
  | .crcInit => 0xFF0000000000
  | .crcByte _ => 0xFF00000000FF
  | .buildRa _ => 0xFFFF00000000
  | .buildRd _ _ _ => 0xFFFFFFFFFFFF
  | .buildWa _ _ => 0xFFFF0000FFFF
  | .rxClear => 0xFF0000000000
  | .rxPush _ => 0xFF00000000FF
  | .validate => 0xFF0000000000
  | .decode _ => 0xFF000000FFFF
  | .buildRe _ => 0xFFFF00000000
  | .srst => 0xFF0000000000

/-- The reserved bits of a word that carries this command (R73): every bit it does not use. -/
def reservedMask (i : Instr) : Command := ~~~ usedMask i

/-- A word that carries command `i` is well formed when its reserved bits are zero (R73). -/
def wellFormedWord (i : Instr) (w : Command) : Bool := w &&& reservedMask i == 0

end Sys2Proof
end

