-- ==== Sys2Proof/Decode.lean ====
section
/-! DEFINITION. The command word: its fields (30_encoding.md R71), the decoder (R72–R74), the encoder (R75) and the
pseudo-instructions (R76). -/

namespace Sys2Proof

/-- `OPC = W[47:40]` (R71). -/
def fieldOpc (w : Command) : Byte := w.extractLsb' 40 8

/-- `A = W[39:32]` (R71). -/
def fieldA (w : Command) : Byte := w.extractLsb' 32 8

/-- `H = W[31:16]` (R71). -/
def fieldH (w : Command) : Half := w.extractLsb' 16 16

/-- `L = W[15:0]` (R71). -/
def fieldL (w : Command) : Half := w.extractLsb' 0 16

/-- `B = W[7:0]` (R71). -/
def fieldB (w : Command) : Byte := w.extractLsb' 0 8

/-- Why the decoder gives no command: the opcode is none of R72 (R74). The step then has the effect of 44_control.md
R202; nothing stops. -/
inductive DecodeReject where
  | illegalOpcode (opc : Byte)
  deriving DecidableEq, Repr

/-- The opcode map of R72. Fields a command does not use are ignored (R73). -/
def decode (w : Command) : Except DecodeReject Instr :=
  match fieldOpc w with
  | 0x00#8 => .ok .nop
  | 0x01#8 => .ok .crcInit
  | 0x02#8 => .ok (.crcByte (fieldB w))
  | 0x03#8 => .ok (.buildRa (fieldA w))
  | 0x04#8 => .ok (.buildRd (fieldA w) (fieldH w) (fieldL w))
  | 0x06#8 => .ok (.buildWa (fieldA w) (fieldL w))
  | 0x10#8 => .ok .rxClear
  | 0x11#8 => .ok (.rxPush (fieldB w))
  | 0x20#8 => .ok .validate
  | 0x21#8 => .ok (.decode (fieldL w))
  | 0x42#8 => .ok (.buildRe (fieldA w))
  | 0xFF#8 => .ok .srst
  | opc => .error (.illegalOpcode opc)

/-- A command of the table as one word: bit 0 of `w` is bit 0 of the command word, and every bit above the row's
`nbits` is zero. The host issues the 48 bits whole (R70), so no byte order enters. -/
def tableWord (nbits w : Nat) : Command := BitVec.ofNat 48 (w % 2 ^ nbits)

/-- The command the decoder reads from a word of spec/opcode_table.json, `none` where it rejects. -/
def decodeTableWord (nbits w : Nat) : Option Instr :=
  match decode (tableWord nbits w) with
  | .ok i => some i
  | .error _ => none

/-- The opcode of a command (R72). -/
def opcodeOf : Instr → Byte
  | .nop => 0x00
  | .crcInit => 0x01
  | .crcByte _ => 0x02
  | .buildRa _ => 0x03
  | .buildRd _ _ _ => 0x04
  | .buildWa _ _ => 0x06
  | .rxClear => 0x10
  | .rxPush _ => 0x11
  | .validate => 0x20
  | .decode _ => 0x21
  | .buildRe _ => 0x42
  | .srst => 0xFF

/-- `W = (OPC << 40) | (A << 32) | (H << 16) | L` (R75). -/
def assemble (opc a : Byte) (h l : Half) : Command :=
  (opc.setWidth 48 <<< 40) ||| (a.setWidth 48 <<< 32) ||| (h.setWidth 48 <<< 16) ||| l.setWidth 48

/-- The word of a command, with every unused field zero and B placed in `L[7:0]` (R75). -/
def encode (i : Instr) : Command :=
  match i with
  | .nop => assemble (opcodeOf i) 0 0 0
  | .crcInit => assemble (opcodeOf i) 0 0 0
  | .crcByte b => assemble (opcodeOf i) 0 0 (b.setWidth 16)
  | .buildRa a => assemble (opcodeOf i) a 0 0
  | .buildRd a s c => assemble (opcodeOf i) a s c
  | .buildWa a n => assemble (opcodeOf i) a 0 n
  | .rxClear => assemble (opcodeOf i) 0 0 0
  | .rxPush b => assemble (opcodeOf i) 0 0 (b.setWidth 16)
  | .validate => assemble (opcodeOf i) 0 0 0
  | .decode s => assemble (opcodeOf i) 0 0 s
  | .buildRe a => assemble (opcodeOf i) a 0 0
  | .srst => assemble (opcodeOf i) 0 0 0

/-- `CRC_SEQ b0, ..., bk` (R76). -/
def crcSeq (bs : List Byte) : List Instr := .crcInit :: bs.map .crcByte

/-- `RX_LOAD b0, ..., bk` (R76). -/
def rxLoad (bs : List Byte) : List Instr := .rxClear :: bs.map .rxPush

/-- `READ_ALL a`: the full-layout window (R76). -/
def readAll (a : Byte) : List Instr := [.buildRd a 0 10]

/-- `GET_ADDR_GENERAL`: the query at the general address 0xF8 (R76). -/
def getAddrGeneral : List Instr := [.buildRa 0xF8]

end Sys2Proof
end

