-- ==== Sys2Proof/Machine/Build.lean ====
section
/-! DEFINITION. The build family: BUILD_RA, BUILD_RD, BUILD_WA, BUILD_RE (41_frame_build.md R121–R127). -/

namespace Sys2Proof.Machine

/-- What every build command does to an earlier exchange (R121, R125): it discards the received bytes, the verdict
and the address result, and clears the flags of the exchange. CRC, RXBUF's contents, the snapshot, ALARM and ERR_ILL
stay. -/
def discardExchange (s : State) : State :=
  { s with
    rxlen := 0
    verdict := Verdict.empty
    addrResult := 0
    status := { s.status with
      nodata := false, crcok := false, fcok := false, addrok := false,
      accept := false, vdone := false, addrValid := false, rxDrop := false } }

/-- `Begin(op, a, fc, prefix, explen, start)` (R121). -/
def beginExchange (op : CtxOp) (a : Byte) (pre : List Byte) (explen : BitVec 18) (start : Half)
    (s : State) : State :=
  let f := buildFrame pre
  let s₁ := discardExchange s
  raise .none { s₁ with
    txbuf := txImage f
    txlen := BitVec.ofNat 4 f.length
    ctx := ⟨op, a, functionCode op, explen, start⟩
    status := { s₁.status with errArg := false } }

/-- `RejectWA()` (R125): no frame, no context, ERR_ARG and CAUSE 6. -/
def rejectWa (s : State) : State :=
  let s₁ := discardExchange s
  raise .invalidArgument { s₁ with
    txbuf := txImage []
    txlen := 0
    ctx := Context.empty
    status := { s₁.status with errArg := true } }

/-- BUILD_RA (R126). -/
def execBuildRa (a : Byte) (s : State) : Result :=
  .next (beginExchange .ra a (prefixRa a) expectedRa 0 s)

/-- BUILD_RD (R122). Neither the window nor the address is checked. -/
def execBuildRd (a : Byte) (start count : Half) (s : State) : Result :=
  .next (beginExchange .rd a (prefixRd a start count) (expectedRd count) start s)

/-- BUILD_WA (R123): the argument is checked before any frame is produced. -/
def execBuildWa (a : Byte) (n : Half) (s : State) : Result :=
  if validNewAddr n a then .next (beginExchange .wa a (prefixWa a n) expectedWa 0 s)
  else .next (rejectWa s)

/-- BUILD_RE (R127). -/
def execBuildRe (a : Byte) (s : State) : Result :=
  .next (beginExchange .re a (prefixRe a) expectedRe 0 s)

end Sys2Proof.Machine
end

