-- ==== Sys2Proof/Machine/Control.lean ====
section
/-! DEFINITION. The control family: NOP, SRST (44_control.md R200, R201) and the effect of an illegal command (R202). -/

namespace Sys2Proof.Machine

/-- NOP (R200). -/
def execNop (s : State) : Result := .next s

/-- SRST (R201): the reset state, the parameters kept. -/
def execSrst (s : State) : Result := .next (resetState s)

/-- An illegal command (R202): ERR_ILL, and CAUSE 7 raised. No constructor of `Instr` stands for it: the step takes
it where the decoder rejects a word. -/
def execIllegal (s : State) : Result :=
  .next (raise .illegalCommand { s with status := { s.status with errIll := true } })

end Sys2Proof.Machine
end

