-- ==== Sys2Proof/Machine/Crc.lean ====
section
/-! DEFINITION. The CRC family: CRC_INIT and CRC_BYTE (40_crc.md R103, R104). -/

namespace Sys2Proof.Machine

/-- CRC_INIT (R103): `CRC <- 0xFFFF`. -/
def execCrcInit (s : State) : Result := .next { s with crc := crcInitial }

/-- CRC_BYTE (R104): `CRC <- Crc16Step(CRC, B)`. -/
def execCrcByte (b : Byte) (s : State) : Result := .next { s with crc := crc16Step s.crc b }

end Sys2Proof.Machine
end

