-- ==== Sys2Proof/Machine/Decoder.lean ====
section
/-! DEFINITION. The decoder family: the pure functions Fill and Decode (43_decoder.md R180–R182), the snapshot write
(R183), the DECODE command (R184) and the engineering values (R185). -/

namespace Sys2Proof.Machine

/-- REG_BLOCK_BYTES (00_scope.md R8). -/
def regBlockBytes : Nat := 20

/-- `Fill(p, s)` (R180): the payload at byte offset `2·s` of an all-zero 20-byte buffer, as far as it fits. For an
offset of 20 or more nothing is copied. -/
def fill (p : List Byte) (s : Half) : List Byte :=
  let off := 2 * s.toNat
  let k := if regBlockBytes ≤ off then 0 else min p.length (regBlockBytes - off)
  (List.range regBlockBytes).map fun i =>
    if off ≤ i ∧ i < off + k then byteAt p (i - off) else 0

/-- `R(j) = be16(buf[2j], buf[2j+1])` (R181). -/
def regOf (buf : List Byte) (j : Nat) : Half := be16 (byteAt buf (2 * j)) (byteAt buf (2 * j + 1))

/-- `R(k) + (R(k+1) << 16)`: low register first (20_memory.md R53). -/
def regPair (buf : List Byte) (k : Nat) : Word :=
  (regOf buf k).setWidth 32 + ((regOf buf (k + 1)).setWidth 32 <<< 16)

/-- What `Decode` returns (R181): the seven fields and the alarm bit. -/
structure Decoded where
  fields : Snapshot
  alarm : Bool
  deriving DecidableEq, Repr

/-- The seven fields of the decode buffer by the layout of R182, and the alarm. -/
def decodeBuffer (buf : List Byte) : Decoded where
  fields :=
    { rawV := regOf buf 0
      rawI := regPair buf 1
      rawP := regPair buf 3
      rawE := regPair buf 5
      rawF := regOf buf 7
      rawPf := regOf buf 8
      rawAl := regOf buf 9 }
  alarm := alarmOf (regOf buf 9)

/-- `Decode(p, s)` (R181): total. -/
def decodePayload (p : List Byte) (s : Half) : Decoded := decodeBuffer (fill p s)

/-- `SnapWrite(d)` (R183): all seven fields and the alarm bit at once. -/
def snapWrite (d : Decoded) (s : State) : State :=
  { s with snap := d.fields, status := { s.status with alarm := d.alarm } }

/-- DECODE (R184): the whole of `RXBUF[0..RXLEN)` is the payload. -/
def execDecode (start : Half) (s : State) : Result :=
  withRxBytes s fun r => snapWrite (decodePayload r start) s

/-- voltage, `RAW_V / 10` (R185). -/
def voltage (d : Snapshot) : Rat := (d.rawV.toNat : Rat) / 10

/-- current, `RAW_I / 1000` (R185). -/
def current (d : Snapshot) : Rat := (d.rawI.toNat : Rat) / 1000

/-- power, `RAW_P / 10` (R185). -/
def power (d : Snapshot) : Rat := (d.rawP.toNat : Rat) / 10

/-- energy in Wh, `RAW_E` (R185). -/
def energy (d : Snapshot) : Rat := (d.rawE.toNat : Rat)

/-- frequency, `RAW_F / 10` (R185). -/
def frequency (d : Snapshot) : Rat := (d.rawF.toNat : Rat) / 10

/-- power factor, `RAW_PF / 100` (R185). -/
def powerFactor (d : Snapshot) : Rat := (d.rawPf.toNat : Rat) / 100

end Sys2Proof.Machine
end

