-- ==== Sys2Proof/Machine/Receive.lean ====
section
/-! DEFINITION. The receive family: RX_CLEAR, RX_PUSH, VALIDATE (42_frame_validate.md R150–R158). -/

namespace Sys2Proof.Machine

/-- RX_CLEAR (R150). The contents of RXBUF, the context and the verdict stay. -/
def execRxClear (s : State) : Result :=
  .next { s with rxlen := 0, status := { s.status with rxDrop := false } }

/-- The push limit (R151): the expected length while a context is active, capped at the capacity. -/
def pushLimit (s : State) : Nat :=
  if s.ctx.op = .none then s.params.rxCap else min s.ctx.expLen.toNat s.params.rxCap

/-- RX_PUSH (R151). The index is below RX_CAP whenever it is below the limit, so the write never faults. -/
def execRxPush (b : Byte) (s : State) : Result :=
  if s.rxlen < pushLimit s then
    match memWrite s.params.rxCap s.rxbuf s.rxlen b with
    | .ok m => .next { s with rxbuf := m, rxlen := s.rxlen + 1 }
    | .error e => .fault e
  else .next { s with status := { s.status with rxDrop := true } }

/-- The echo check of the function code (R154). -/
def fcEcho (s : State) (sp : SplitResult) : Bool := !sp.nodata && sp.fc == s.ctx.expFc

/-- The echo check of the address (R154). -/
def addrEcho (s : State) (sp : SplitResult) : Bool := !sp.nodata && sp.addr == s.ctx.expAddr

/-- The verdict on a split response in the current context (R155). -/
def accepts (s : State) (sp : SplitResult) : Bool :=
  acceptOf s.params.strictCrcRead s.ctx.op sp.nodata sp.crcok (fcEcho s sp) (addrEcho s sp)

/-- The flags, the cause and the verdict registers VALIDATE writes (R152). PL_LEN is 16 bits (R26). -/
def recordVerdict (sp : SplitResult) (s : State) : State :=
  { s with
    status := { s.status with
      vdone := true
      nodata := sp.nodata
      crcok := sp.crcok
      fcok := fcEcho s sp
      addrok := addrEcho s sp
      accept := accepts s sp
      cause := causeOf s.params.strictCrcRead s.ctx.op sp.nodata sp.crcok (fcEcho s sp)
        (addrEcho s sp) sp.plen }
    verdict := ⟨sp.addr, sp.fc, sp.rxCrc, sp.calcCrc, BitVec.ofNat 16 sp.plen⟩ }

/-- `AddrResult(acc, plen)` (R157), with `r` the bytes `RXBUF[0..RXLEN)`. -/
def addrResultWrite (acc : Bool) (plen : Nat) (r : List Byte) (s : State) : State :=
  if acc ∧ 2 ≤ plen then
    { s with addrResult := be16 (byteAt r 3) (byteAt r 4), status := { s.status with addrValid := true } }
  else { s with addrResult := 0, status := { s.status with addrValid := false } }

/-- VALIDATE of the response `r` (R152): the verdict, then the completion action of the operation (R157, R158). -/
def validateResponse (r : List Byte) (s : State) : State :=
  let sp := splitFrame r
  let acc := accepts s sp
  let s₁ := recordVerdict sp s
  match s.ctx.op with
  | .ra => addrResultWrite acc sp.plen r s₁
  | .rd => if acc then snapWrite (decodePayload (bytesFrom r 3 (3 + sp.plen)) s.ctx.winStart) s₁ else s₁
  | .none => s₁
  | .wa => s₁
  | .re => s₁

/-- VALIDATE (R152). -/
def execValidate (s : State) : Result := withRxBytes s fun r => validateResponse r s

end Sys2Proof.Machine
end

