-- ==== Sys2Proof/Machine/Dispatch.lean ====
section
/-! DEFINITION. The meaning of each command: one arm per constructor of `Instr`. -/

namespace Sys2Proof.Machine

def exec (i : Instr) (s : State) : Host.Outcome State Fault Refusal :=
  match i with
  | .nop => Sys2Proof.Machine.execNop s
  | .crcInit => Sys2Proof.Machine.execCrcInit s
  | .crcByte b => Sys2Proof.Machine.execCrcByte b s
  | .buildRa a => Sys2Proof.Machine.execBuildRa a s
  | .buildRd a start count => Sys2Proof.Machine.execBuildRd a start count s
  | .buildWa a n => Sys2Proof.Machine.execBuildWa a n s
  | .rxClear => Sys2Proof.Machine.execRxClear s
  | .rxPush b => Sys2Proof.Machine.execRxPush b s
  | .validate => Sys2Proof.Machine.execValidate s
  | .decode start => Sys2Proof.Machine.execDecode start s
  | .buildRe a => Sys2Proof.Machine.execBuildRe a s
  | .srst => Sys2Proof.Machine.execSrst s

end Sys2Proof.Machine
end

