-- ==== Sys2Proof/Machine/Sequence.lean ====
section
/-! DEFINITION. Running a command word, an event of the host, and a host sequence: a list of commands, among them the
pseudo-instructions of 30_encoding.md R76. -/

namespace Sys2Proof.Machine

/-- One command word (20_memory.md R56). A word the decoder rejects is an illegal command and has its effect
(44_control.md R202; log entry 5). -/
def runWord (w : Command) (s : State) : Result :=
  match decode w with
  | .ok i => exec i s
  | .error _ => execIllegal s

/-- One event of the host: a command word runs, a reset from outside resets (70_reset_and_hazards.md R230). -/
def runEvent (e : HostEvent) (s : State) : Result :=
  match e with
  | .command w => runWord w s
  | .reset => .next (hardwareReset s)

/-- The commands of a list executed one after the other, stopping at a fault or a refusal (R76). -/
def execSeq : List Instr → State → Host.Outcome State Fault Refusal
  | [], s => .next s
  | i :: is, s =>
    match exec i s with
    | .next t => execSeq is t
    | .fault r => .fault r
    | .refused r => .refused r

end Sys2Proof.Machine
end

