-- ==== Sys2Proof/Machine/Step.lean ====
section
/-! DEFINITION. One step of the MBC: one event of the host takes effect, atomically (20_memory.md R56, R60). -/

namespace Sys2Proof.Machine

/-- One step. Where the host does nothing the state persists (60_exceptions.md R220; log entry 5). -/
def step (s : State) : Host.Outcome State Fault Refusal :=
  match takeEvent s with
  | none => .next s
  | some (e, s₁) => runEvent e s₁

/-- `s` with the host issuing the table's word next (log entry 1). -/
def State.withFetchWord (s : State) (nbits w : Nat) : State := issueNext (tableWord nbits w) s

end Sys2Proof.Machine
end

