-- ==== Sys2Proof/Safety.lean ====
section
/-! DEFINITION. What the statements are stated in: the invariants of the spec (R9, R23, R24, R25, R28, R30, R128), the
effect of a build command as R121 and R125 list it, and which bytes of a payload land in the decode buffer (R180). -/

namespace Sys2Proof.Machine

/-- `25 ≤ RX_CAP ≤ 65535` (00_scope.md R9). -/
abbrev ParamsOk (p : Params) : Prop := Config.rxCapMin ≤ p.rxCap ∧ p.rxCap ≤ Config.rxCapMax

/-- The receive buffer (10_state.md R24, 42_frame_validate.md R151): RXBUF holds no byte at or above RX_CAP, its
contents are in canonical form, RXLEN is at most the push limit, every byte below RXLEN has been written. -/
structure RxOk (s : State) : Prop where
  canonical : Memory.wf s.rxbuf = true
  inside : ∀ c ∈ s.rxbuf, c.1 < s.params.rxCap
  limit : s.rxlen ≤ pushLimit s
  written : ∀ i, i < s.rxlen → ∃ b, rxByte s i = .ok b

/-- TXBUF and TXLEN hold the request frame of prefix `p`, and zeros after it (10_state.md R23). -/
def Holds (s : State) (p : List Byte) : Prop :=
  s.txbuf = txImage (buildFrame p) ∧ s.txlen.toNat = (buildFrame p).length

/-- The context and the transmit buffer tell of one request (10_state.md R25, R23; 41_frame_build.md R121–R127): the
expected function code and length of the kind, and TXBUF the request frame that was sent to EXP_ADDR. -/
def RequestOk (s : State) : Prop :=
  s.ctx.expFc = functionCode s.ctx.op ∧
  match s.ctx.op with
  | .none => s.ctx = Context.empty ∧ s.txbuf = txImage [] ∧ s.txlen = 0
  | .rd => ∃ c : Half, s.ctx.expLen.toNat = 2 * c.toNat + 5 ∧
      Holds s (prefixRd s.ctx.expAddr s.ctx.winStart c)
  | .wa => s.ctx.expLen = 8 ∧ s.ctx.winStart = 0 ∧
      ∃ n : Half, validNewAddr n s.ctx.expAddr = true ∧ Holds s (prefixWa s.ctx.expAddr n)
  | .ra => s.ctx.expLen = 7 ∧ s.ctx.winStart = 0 ∧ Holds s (prefixRa s.ctx.expAddr)
  | .re => s.ctx.expLen = 4 ∧ s.ctx.winStart = 0 ∧ Holds s (prefixRe s.ctx.expAddr)

/-- The verdict flags agree with the verdict registers, the context and each other (10_state.md R28, R30;
42_frame_validate.md R153–R157). -/
structure VerdictOk (s : State) : Prop where
  /-- Before a VALIDATE, and when it saw no data, the verdict registers are zero. -/
  cleared : (s.status.vdone = false ∨ s.status.nodata = true) → s.verdict = Verdict.empty
  pending : s.status.vdone = false → s.status.nodata = false
  crcok : s.status.crcok =
    (s.status.vdone && !s.status.nodata && s.verdict.calcCrc == s.verdict.rxCrc)
  fcok : s.status.fcok = (s.status.vdone && !s.status.nodata && s.verdict.fc == s.ctx.expFc)
  addrok : s.status.addrok =
    (s.status.vdone && !s.status.nodata && s.verdict.addr == s.ctx.expAddr)
  accept : s.status.accept = (s.status.vdone && acceptOf s.params.strictCrcRead s.ctx.op
    s.status.nodata s.status.crcok s.status.fcok s.status.addrok)
  /-- ADDR_VALID = 1 implies CTX_OP = RA and ACCEPT = 1 (R28). -/
  addrValid : s.status.addrValid = true → s.ctx.op = .ra ∧ s.status.accept = true
  /-- When ADDR_VALID = 0, ADDR_RESULT is 0x0000 (R30). -/
  addrUnknown : s.status.addrValid = false → s.addrResult = 0

/-- The invariant of the machine. -/
structure MachineInv (s : State) : Prop where
  params : ParamsOk s.params
  rx : RxOk s
  request : RequestOk s
  verdict : VerdictOk s
  /-- ALARM is always equal to `(RAW_AL = 0xFFFF)` (R28). -/
  alarm : s.status.alarm = true ↔ s.snap.rawAl = 0xFFFF#16
  /-- A rejected BUILD_WA leaves no context until an accepted build or a reset clears ERR_ARG (R125, R211). -/
  errArg : s.status.errArg = true → s.ctx.op = .none

/-- What no build command changes (41_frame_build.md R121, R125): CRC, RXBUF's contents, the snapshot, ALARM, ERR_ILL,
the parameters, and the host's list. -/
structure BuildKeeps (s t : State) : Prop where
  crc : t.crc = s.crc
  rxbuf : ∀ a, rxByte t a = rxByte s a
  rxcells : t.rxbuf = s.rxbuf
  snap : t.snap = s.snap
  alarm : t.status.alarm = s.status.alarm
  errIll : t.status.errIll = s.status.errIll
  params : t.params = s.params
  hostEvents : t.hostEvents = s.hostEvents

/-- What every build command, accepted or rejected, clears (R121, R125). -/
structure BuildClears (t : State) : Prop where
  rxlen : t.rxlen = 0
  verdict : t.verdict = ⟨0, 0, 0, 0, 0⟩
  addrResult : t.addrResult = 0
  nodata : t.status.nodata = false
  crcok : t.status.crcok = false
  fcok : t.status.fcok = false
  addrok : t.status.addrok = false
  accept : t.status.accept = false
  vdone : t.status.vdone = false
  addrValid : t.status.addrValid = false
  rxDrop : t.status.rxDrop = false

/-- The effect of `Begin(op, a, fc, prefix, explen, start)` from `s` to `t` as R121 lists it: `frame` is the frame of
`prefix`, and `TXBUF[i]` is 0x00 at and after its length. -/
structure BeginEffect (s t : State) (op : CtxOp) (a fc : Byte) (pre : List Byte) (explen : Nat)
    (start : Half) : Prop where
  txbuf : ∀ i : Fin 8, t.txbuf[i] = byteAt (pre ++ [lo8 (crc16 pre), hi8 (crc16 pre)]) i.val
  txlen : t.txlen.toNat = pre.length + 2
  op : t.ctx.op = op
  expAddr : t.ctx.expAddr = a
  expFc : t.ctx.expFc = fc
  expLen : t.ctx.expLen.toNat = explen
  winStart : t.ctx.winStart = start
  errArg : t.status.errArg = false
  cause : t.status.cause = .none
  clears : BuildClears t
  keeps : BuildKeeps s t

/-- The effect of `RejectWA()` from `s` to `t` as R125 lists it. -/
structure RejectEffect (s t : State) : Prop where
  txbuf : ∀ i : Fin 8, t.txbuf[i] = 0x00#8
  txlen : t.txlen = 0
  ctx : t.ctx = ⟨.none, 0, 0, 0, 0⟩
  errArg : t.status.errArg = true
  cause : t.status.cause = .invalidArgument
  clears : BuildClears t
  keeps : BuildKeeps s t

/-- The payload byte that lands at index `i` of the decode buffer for start register `s`, if one does (R180). -/
def landed (p : List Byte) (s : Half) (i : Nat) : Option Byte :=
  if 2 * s.toNat ≤ i then p[i - 2 * s.toNat]? else none

/-- The opcodes of 30_encoding.md R72. -/
def definedOpcodes : List Byte :=
  [0x00, 0x01, 0x02, 0x03, 0x04, 0x06, 0x10, 0x11, 0x20, 0x21, 0x42, 0xFF]

/-- The illegal opcodes as 44_control.md R202 lists them. -/
abbrev illegalOpcode (o : Nat) : Prop :=
  o = 0x05 ∨ (0x07 ≤ o ∧ o ≤ 0x0F) ∨ (0x12 ≤ o ∧ o ≤ 0x1F) ∨ (0x22 ≤ o ∧ o ≤ 0x41) ∨ (0x43 ≤ o ∧ o ≤ 0xFE)

/-- Every word whose bits 47:40 are `opc` decodes to the command `f` reads from it (R71, R72). -/
def Decodes (opc : Byte) (f : Command → Instr) : Prop :=
  ∀ w : Command, (w >>> 40).setWidth 8 = opc → decode w = .ok (f w)

/-- A build command the MBC accepts, with the prefix of its frame (R122, R123, R126, R127). -/
def acceptedPrefix : Instr → Option (List Byte)
  | .buildRa a => some [a, 0x03, 0x00, 0x02, 0x00, 0x01]
  | .buildRd a s c => some [a, 0x04, hi8 s, lo8 s, hi8 c, lo8 c]
  | .buildWa a n => if validNewAddr n a then some [a, 0x06, 0x00, 0x02, hi8 n, lo8 n] else none
  | .buildRe a => some [a, 0x42]
  | .nop | .crcInit | .crcByte _ | .rxClear | .rxPush _ | .validate | .decode _ | .srst => none

/-- A build command, accepted or not. -/
def isBuild : Instr → Bool
  | .buildRa _ | .buildRd _ _ _ | .buildWa _ _ | .buildRe _ => true
  | .nop | .crcInit | .crcByte _ | .rxClear | .rxPush _ | .validate | .decode _ | .srst => false

end Sys2Proof.Machine
end

