-- ==== Sys2Proof/Certificates/Slice0/Obligations.lean ====
section
/-! DEFINITION. The statements for the provers. Each docstring names the rule of spec/ it formalises, or the rules it
is derived from. -/

open Sys2Proof Sys2Proof.Machine

/-! ## Encoding -/

/-- Decoding the word of a command gives the command, for every command and every operand (derived: R71, R72, R75). -/
def Obligations.DecodeEncodeAgree : Prop :=
  ∀ i : Instr, decode (encode i) = .ok i

/-- Among the words that decode to a command, the well-formed one, whose reserved bits are zero, is the one R75
assembles (derived: R73, R75). -/
def Obligations.WellFormedWordsAreEncodings : Prop :=
  ∀ (w : Command) (i : Instr), decode w = .ok i → (wellFormedWord i w = true ↔ encode i = w)

/-- R73: changing reserved bits changes nothing, only OPC selects the command, and CRC_BYTE and RX_PUSH ignore
`L[15:8]`. -/
def Obligations.ReservedBitsIgnored : Prop :=
  (∀ (w m : Command) (i : Instr), decode w = .ok i →
    decode (w ^^^ (m &&& reservedMask i)) = .ok i ∧
    ∀ s : State, step (issueNext (w ^^^ (m &&& reservedMask i)) s) = step (issueNext w s)) ∧
  (∀ (w : Command) (i : Instr), decode w = .ok i → (w >>> 40).setWidth 8 = opcodeOf i) ∧
  (∀ i : Instr, reservedMask i &&& 0xFF0000000000#48 = 0#48) ∧
  (∀ b : Byte, reservedMask (.crcByte b) = 0x00FFFFFFFF00#48 ∧
    reservedMask (.rxPush b) = 0x00FFFFFFFF00#48)

/-- R72: the opcode map is complete, each command with the fields it uses, and the opcode of each build command is
the function code it puts in the frame. -/
def Obligations.OpcodeMapComplete : Prop :=
  Decodes 0x00 (fun _ => .nop) ∧
  Decodes 0x01 (fun _ => .crcInit) ∧
  Decodes 0x02 (fun w => .crcByte (w.setWidth 8)) ∧
  Decodes 0x03 (fun w => .buildRa ((w >>> 32).setWidth 8)) ∧
  Decodes 0x04 (fun w => .buildRd ((w >>> 32).setWidth 8) ((w >>> 16).setWidth 16) (w.setWidth 16)) ∧
  Decodes 0x06 (fun w => .buildWa ((w >>> 32).setWidth 8) (w.setWidth 16)) ∧
  Decodes 0x10 (fun _ => .rxClear) ∧
  Decodes 0x11 (fun w => .rxPush (w.setWidth 8)) ∧
  Decodes 0x20 (fun _ => .validate) ∧
  Decodes 0x21 (fun w => .decode (w.setWidth 16)) ∧
  Decodes 0x42 (fun w => .buildRe ((w >>> 32).setWidth 8)) ∧
  Decodes 0xFF (fun _ => .srst) ∧
  (∀ w : Command, (w >>> 40).setWidth 8 ∉ definedOpcodes →
    decode w = .error (.illegalOpcode ((w >>> 40).setWidth 8))) ∧
  (∀ (i : Instr) (p : List Byte) (s : State), acceptedPrefix i = some p →
    ∃ t, exec i s = .next t ∧ t.txbuf[1] = opcodeOf i)

/-- A few words written out from the spec's encodings (30_encoding.md R75, 95_test_vectors.md §2) decode to the
command they stand for. -/
def Obligations.KnownWordsDecode : Prop :=
  decode 0x000000000000 = .ok .nop ∧
  decode 0x02FFFFFFFF01 = .ok (.crcByte 0x01) ∧
  decode 0x04F80007000A = .ok (.buildRd 0xF8 7 10) ∧
  decode 0x0605000000F7 = .ok (.buildWa 0x05 0xF7) ∧
  decode 0x03F800000000 = .ok (.buildRa 0xF8) ∧
  decode 0x42F800000000 = .ok (.buildRe 0xF8) ∧
  decode 0x1100000000F8 = .ok (.rxPush 0xF8) ∧
  decode 0x210000000007 = .ok (.decode 7) ∧
  decode 0x410000000000 = .error (.illegalOpcode 0x41)

/-! ## The step, the illegal command, NOP, reset -/

/-- When the host's next event is a word that decodes to a command, a step is that command's meaning on the state with
the word taken off the host's list; placing a table's word makes it the next one; a reset from outside is a step too
(derived: R56, R60, R230; the host's list is the model's, log entry 1). -/
def Obligations.StepRunsDecodedCommand : Prop :=
  (∀ (s : State) (w : Command) (es : List HostEvent) (i : Instr), s.hostEvents = .command w :: es →
    decode w = .ok i → step s = exec i { s with hostEvents := es }) ∧
  (∀ (s : State) (es : List HostEvent), s.hostEvents = .reset :: es →
    step s = .next (hardwareReset { s with hostEvents := es })) ∧
  (∀ (s : State) (nbits w : Nat) (i : Instr), decodeTableWord nbits w = some i →
    step (s.withFetchWord nbits w) = exec i s)

/-- Where the host does nothing the state persists (derived: R220; log entry 5 is the model's choice). -/
def Obligations.IdleStepKeepsState : Prop :=
  ∀ s : State, s.hostEvents = [] → step s = .next s

/-- R202: an illegal command sets ERR_ILL and CAUSE 7 and changes nothing else; there are 244 illegal opcodes; a later
VALIDATE overwrites CAUSE, but ERR_ILL stays. -/
def Obligations.IllegalCommandEffect : Prop :=
  (∀ (w : Command) (s : State), illegalOpcode ((w >>> 40).setWidth 8 : Byte).toNat →
    step (issueNext w s) =
      .next { s with status := { s.status with errIll := true, cause := .illegalCommand } }) ∧
  causeCode .illegalCommand = 7 ∧
  ((List.range 256).filter (fun o => decide (illegalOpcode o))).length = 244 ∧
  (∀ o : Byte, illegalOpcode o.toNat ↔ o ∉ definedOpcodes) ∧
  (∀ (s : State) (r : List Byte), s.status.errIll = true → rxBytes s = .ok r →
    ∃ t, exec .validate s = .next t ∧ t.status.errIll = true ∧ t.status.cause ≠ .illegalCommand) ∧
  (∀ s : State, ∃ t, step (issueNext 0x050000000000 s) = .next t ∧ t.status.errIll = true ∧
    causeCode t.status.cause = 7)

/-- R200: NOP changes nothing, and the all-zero word is a NOP. -/
def Obligations.NopCompletes : Prop :=
  Decodes 0x00 (fun _ => .nop) ∧
  (∀ s : State, exec .nop s = .next s) ∧
  (∀ s : State, step (issueNext 0x000000000000 s) = .next s)

/-- R34 and R201: SRST and a hardware reset give the reset value of every element, with the parameters kept and
nothing of RXBUF observable; no other command clears ERR_ILL. -/
def Obligations.SrstRestoresResetState : Prop :=
  Decodes 0xFF (fun _ => .srst) ∧
  (∀ s : State, ∃ t, exec .srst s = .next t ∧ t = hardwareReset s ∧
    t.crc = 0xFFFF#16 ∧ (∀ i : Fin 8, t.txbuf[i] = 0x00#8) ∧ t.txlen = 0 ∧ t.rxlen = 0 ∧
    rxBytes t = .ok [] ∧ t.ctx.op = .none ∧ t.ctx.expAddr = 0 ∧ t.ctx.expFc = 0 ∧
    t.ctx.expLen = 0 ∧ t.ctx.winStart = 0 ∧ t.verdict = ⟨0, 0, 0, 0, 0⟩ ∧
    statusWord t.status = 0x0000#16 ∧ t.status.errIll = false ∧ t.addrResult = 0x0000#16 ∧
    t.snap = ⟨0, 0, 0, 0, 0, 0, 0⟩ ∧ t.snap = (decodePayload [] 0).fields ∧
    t.params = s.params) ∧
  (∀ (i : Instr) (s t : State), i ≠ .srst → exec i s = .next t → s.status.errIll = true →
    t.status.errIll = true) ∧
  hardwareReset State.reset = State.reset

/-- The invariant holds at reset (derived: R9, R24, R28, R30, R34). -/
def Obligations.ResetMeetsInvariant : Prop := MachineInv State.reset

/-! ## CRC -/

/-- R100: the byte is XORed into the low byte; each of eight iterations is a logical shift right by one, with 0xA001
XORed in when bit 0 was set. -/
def Obligations.CrcStepShiftsAndXors : Prop :=
  (∀ (r : Half) (i : Nat), i < 16 → (crcShift r).getLsbD i =
    ((decide (i < 15) && r.getLsbD (i + 1)) ^^ (r.getLsbD 0 && (0xA001#16).getLsbD i))) ∧
  (∀ (c : Half) (b : Byte), crc16Step c b = crcShift^[8] (c ^^^ b.setWidth 16))

/-- R101, R102, R120: Crc16 folds Crc16Step from 0xFFFF in index order, its output is low byte first, and BuildFrame
appends that output to the prefix. -/
def Obligations.Crc16FoldsAndFramesAppendIt : Prop :=
  crc16 [] = 0xFFFF#16 ∧
  (∀ (p : List Byte) (b : Byte), crc16 (p ++ [b]) = crc16Step (crc16 p) b) ∧
  (∀ c : Half, crcBytes c = [c.setWidth 8, (c >>> 8).setWidth 8]) ∧
  (∀ p : List Byte, buildFrame p = p ++ crcBytes (crc16 p) ∧ (buildFrame p).length = p.length + 2)

/-- The CRC values of R105 and of 95_test_vectors.md CR3, CR7 and CR9 (derived: R100, R101, R105). -/
def Obligations.Crc16KnownValues : Prop :=
  crcBytes (crc16 []) = [0xFF, 0xFF] ∧
  crcBytes (crc16 [0x01, 0x03, 0x00, 0x02, 0x00, 0x01]) = [0x25, 0xCA] ∧
  crc16 [0x01] = 0x807E#16 ∧
  crc16 [0x31, 0x32, 0x33, 0x34, 0x35, 0x36, 0x37, 0x38, 0x39] = 0x4B37#16 ∧
  crc16 [0xF8, 0x04] = 0xB343#16

/-- R106: a byte sequence with its own CRC appended low byte first has residue zero. -/
def Obligations.CrcResidueIsZero : Prop :=
  ∀ p : List Byte, crc16 (p ++ [lo8 (crc16 p), hi8 (crc16 p)]) = 0x0000#16

/-- R103: CRC_INIT sets the accumulator to 0xFFFF, its reset value, and changes nothing else, no byte of RXBUF
either; it is idempotent. -/
def Obligations.CrcInitCompletes : Prop :=
  Decodes 0x01 (fun _ => .crcInit) ∧
  (∀ s : State, ∃ t, exec .crcInit s = .next t ∧ t.crc = 0xFFFF#16 ∧ t.crc = (hardwareReset s).crc ∧
    { t with crc := s.crc } = s ∧ (∀ a, rxByte t a = rxByte s a) ∧ exec .crcInit t = .next t)

/-- R104: CRC_BYTE folds one byte into the accumulator and changes nothing else, no byte of RXBUF either; CRC_INIT and
a sequence of CRC_BYTE compute Crc16; without CRC_INIT the sequence continues. -/
def Obligations.CrcByteCompletes : Prop :=
  Decodes 0x02 (fun w => .crcByte (w.setWidth 8)) ∧
  (∀ (s : State) (b : Byte), ∃ t, exec (.crcByte b) s = .next t ∧ t.crc = crc16Step s.crc b ∧
    { t with crc := s.crc } = s ∧ ∀ a, rxByte t a = rxByte s a) ∧
  (∀ (s : State) (bs : List Byte), execSeq (crcSeq bs) s = .next { s with crc := crc16 bs }) ∧
  (∀ (s : State) (bs : List Byte),
    execSeq (bs.map .crcByte) s = .next { s with crc := bs.foldl crc16Step s.crc }) ∧
  crc16Step 0xFFFF#16 0x00 = 0x40BF#16 ∧ crc16Step 0xFFFF#16 0x01 = 0x807E#16

/-! ## Request frames -/

/-- R122: BUILD_RD, its frame, its context and its exact expected length, with everything R121 clears and keeps. -/
def Obligations.BuildRdCompletes : Prop :=
  Decodes 0x04 (fun w => .buildRd ((w >>> 32).setWidth 8) ((w >>> 16).setWidth 16) (w.setWidth 16)) ∧
  (∀ (s : State) (a : Byte) (start count : Half), ∃ t, exec (.buildRd a start count) s = .next t ∧
    BeginEffect s t .rd a 0x04 [a, 0x04, hi8 start, lo8 start, hi8 count, lo8 count]
      (2 * count.toNat + 5) start ∧
    (s.params.rxCap < 2 * count.toNat + 5 → pushLimit t = s.params.rxCap)) ∧
  (∀ s : State, ∃ t, exec (.buildRd 0xF8 0 10) s = .next t ∧
    t.txbuf = #v[0xF8, 0x04, 0x00, 0x00, 0x00, 0x0A, 0x64, 0x64] ∧ t.txlen = 8 ∧
    t.ctx.expLen = 25 ∧ t.ctx.winStart = 0)

/-- R126: BUILD_RA, its constant register index and count, with everything R121 clears and keeps; ADDR_VALID, cleared
by it, is set by no command but an accepted VALIDATE. -/
def Obligations.BuildRaCompletes : Prop :=
  Decodes 0x03 (fun w => .buildRa ((w >>> 32).setWidth 8)) ∧
  (∀ (s : State) (a : Byte), ∃ t, exec (.buildRa a) s = .next t ∧
    BeginEffect s t .ra a 0x03 [a, 0x03, 0x00, 0x02, 0x00, 0x01] 7 0) ∧
  (∀ s : State, ∃ t, exec (.buildRa 0xF8) s = .next t ∧
    t.txbuf = #v[0xF8, 0x03, 0x00, 0x02, 0x00, 0x01, 0x31, 0xA3] ∧ t.ctx.expLen = 7) ∧
  (∀ (i : Instr) (s t : State), exec i s = .next t → s.status.addrValid = false →
    t.status.addrValid = true → i = .validate ∧ t.status.accept = true)

/-- R127: BUILD_RE, a 4-byte frame without payload, with everything R121 clears and keeps. -/
def Obligations.BuildReCompletes : Prop :=
  Decodes 0x42 (fun w => .buildRe ((w >>> 32).setWidth 8)) ∧
  (∀ (s : State) (a : Byte), ∃ t, exec (.buildRe a) s = .next t ∧
    BeginEffect s t .re a 0x42 [a, 0x42] 4 0) ∧
  (∀ s : State, ∃ t, exec (.buildRe 0xF8) s = .next t ∧
    t.txbuf = #v[0xF8, 0x42, 0xC2, 0x41, 0x00, 0x00, 0x00, 0x00] ∧ t.txlen = 4 ∧ t.ctx.expLen = 4)

/-- R123: BUILD_WA begins an exchange for a valid new address, with everything R121 clears and keeps, and is rejected
otherwise (R125) with CAUSE 6; the high byte of an accepted address is 0x00; the old address is what must be echoed. -/
def Obligations.BuildWaCompletes : Prop :=
  Decodes 0x06 (fun w => .buildWa ((w >>> 32).setWidth 8) (w.setWidth 16)) ∧
  (∀ (s : State) (a : Byte) (n : Half), ∃ t, exec (.buildWa a n) s = .next t ∧
    (validNewAddr n a = true →
      BeginEffect s t .wa a 0x06 [a, 0x06, 0x00, 0x02, hi8 n, lo8 n] 8 0 ∧ hi8 n = 0x00#8) ∧
    (validNewAddr n a = false → RejectEffect s t ∧ causeCode t.status.cause = 6)) ∧
  (∀ s : State, ∃ t, exec (.buildWa 0xF8 0x01) s = .next t ∧
    t.txbuf = #v[0xF8, 0x06, 0x00, 0x02, 0x00, 0x01, 0xFD, 0xA3] ∧ t.txlen = 8 ∧ t.ctx.expLen = 8)

/-- R124: which new addresses are valid; the condition `N ≠ 0xF8` is implied by the range. -/
def Obligations.NewAddressCheck : Prop :=
  ∀ (n : Half) (a : Byte),
    (validNewAddr n a = true ↔
      0x01 ≤ n.toNat ∧ n.toNat ≤ 0xF7 ∧ n.toNat ≠ a.toNat ∧ n.toNat ≠ 0xF8) ∧
    (validNewAddr n a = true ↔ 0x01 ≤ n.toNat ∧ n.toNat ≤ 0xF7 ∧ n.toNat ≠ a.toNat)

/-- R125: a rejected BUILD_WA produces no frame, empties the context, sets ERR_ARG and CAUSE 6, and leaves the
snapshot; a VALIDATE in an empty context accepts no response, whatever is pushed before it. -/
def Obligations.RejectedBuildWaEffect : Prop :=
  (∀ (s : State) (a : Byte) (n : Half), validNewAddr n a = false →
    ∃ t, exec (.buildWa a n) s = .next t ∧ RejectEffect s t ∧ txFrame t = [] ∧
      ∀ (bs : List Byte) (t' : State), execSeq (bs.map .rxPush ++ [.validate]) t = .next t' →
        t'.status.accept = false) ∧
  causeCode .invalidArgument = 6

/-- R128: every accepted build leaves TXLEN 4 or 8 and the frame of its prefix; a frame of a prefix of at least two
bytes splits with its CRC right, on the pure function and, where the push limit allows, through the commands. -/
def Obligations.BuiltFramesValidate : Prop :=
  (∀ (i : Instr) (p : List Byte) (s : State), acceptedPrefix i = some p →
    ∃ t, exec i s = .next t ∧ (t.txlen = 4 ∨ t.txlen = 8) ∧ txFrame t = buildFrame p) ∧
  (∀ p : List Byte, 2 ≤ p.length → (splitFrame (buildFrame p)).nodata = false ∧
    (splitFrame (buildFrame p)).crcok = true) ∧
  (∀ p : List Byte, p.length < 2 → (splitFrame (buildFrame p)).nodata = true) ∧
  (∀ (s : State) (p : List Byte), 2 ≤ p.length → s.rxlen = 0 → p.length + 2 ≤ pushLimit s →
    ∃ t, execSeq ((buildFrame p).map .rxPush ++ [.validate]) s = .next t ∧
      t.status.nodata = false ∧ t.status.crcok = true)

/-- A build command discards the exchange before it: what it answers does not depend on the received length, the
context, the verdict, the address result or the flags of that exchange (derived: R121, R125, R233). -/
def Obligations.BuildForgetsEarlierExchange : Prop :=
  ∀ (i : Instr) (s s' : State), isBuild i = true → s.params = s'.params → s.crc = s'.crc →
    s.rxbuf = s'.rxbuf → s.snap = s'.snap → s.status.alarm = s'.status.alarm →
    s.status.errIll = s'.status.errIll → s.hostEvents = s'.hostEvents → exec i s = exec i s'

/-! ## Receiving -/

/-- R150: RX_CLEAR empties the buffer and clears RX_DROP, and changes nothing else, no byte of RXBUF either; a
VALIDATE right after it reports NODATA. -/
def Obligations.RxClearCompletes : Prop :=
  Decodes 0x10 (fun _ => .rxClear) ∧
  (∀ s : State, ∃ t, exec .rxClear s = .next t ∧ t.rxlen = 0 ∧ t.status.rxDrop = false ∧
    { t with rxlen := s.rxlen, status := { t.status with rxDrop := s.status.rxDrop } } = s ∧
    (∀ a, rxByte t a = rxByte s a) ∧
    ∃ t', exec .validate t = .next t' ∧ t'.status.nodata = true)

/-- R151: RX_PUSH appends its byte at index RXLEN below the push limit and drops it at the limit; every other byte of
RXBUF and everything else stays. -/
def Obligations.RxPushCompletes : Prop :=
  Decodes 0x11 (fun w => .rxPush (w.setWidth 8)) ∧
  (∀ (s : State) (b : Byte),
    let lim := if s.ctx.op = .none then s.params.rxCap else min s.ctx.expLen.toNat s.params.rxCap
    (s.rxlen < lim → ∃ t, exec (.rxPush b) s = .next t ∧ t.rxlen = s.rxlen + 1 ∧
      rxByte t s.rxlen = .ok b ∧ (∀ a, a ≠ s.rxlen → rxByte t a = rxByte s a) ∧
      { t with rxbuf := s.rxbuf, rxlen := s.rxlen } = s) ∧
    (lim ≤ s.rxlen → ∃ t, exec (.rxPush b) s = .next t ∧ t.status.rxDrop = true ∧
      (∀ a, rxByte t a = rxByte s a) ∧
      { t with status := { t.status with rxDrop := s.status.rxDrop } } = s)) ∧
  (∀ s : State, ParamsOk s.params →
    ∃ t, execSeq (.buildRe 0xF8 :: [0xF8, 0x42, 0xC2, 0x41, 0x00].map .rxPush) s = .next t ∧
      t.rxlen = 4 ∧ t.status.rxDrop = true)

/-- RX_LOAD stores the bytes in order up to the push limit, in any state, and flags what it drops (derived: R24, R76,
R150, R151). -/
def Obligations.RxLoadStoresBytes : Prop :=
  ∀ (s : State) (bs : List Byte), ∃ t, execSeq (rxLoad bs) s = .next t ∧
    rxBytes t = .ok (bs.take (pushLimit s)) ∧ t.rxlen = min bs.length (pushLimit s) ∧
    t.status.rxDrop = decide (pushLimit s < bs.length) ∧
    { t with
      rxbuf := s.rxbuf
      rxlen := s.rxlen
      status := { t.status with rxDrop := s.status.rxDrop } } = s

/-! ## Validation -/

/-- R153: Split of a response of fewer than 4 bytes is 'no data' with all fields zero; of a longer one, with its last
two bytes `lo, hi`, the echoed bytes, the payload after byte 2, the received and the recomputed CRC. -/
def Obligations.SplitSeparatesResponse : Prop :=
  (∀ r : List Byte, r.length < 4 → splitFrame r = ⟨true, 0, 0, 0, 0, 0, false⟩) ∧
  (∀ (a fc lo hi : Byte) (mid : List Byte),
    let r := a :: fc :: mid ++ [lo, hi]
    let sp := splitFrame r
    sp.nodata = false ∧ sp.addr = a ∧ sp.fc = fc ∧ sp.plen = mid.length - 1 ∧
    bytesFrom r 3 (3 + sp.plen) = mid.drop 1 ∧
    sp.rxCrc = be16 hi lo ∧ sp.calcCrc = crc16 (a :: fc :: mid) ∧
    (sp.crcok = true ↔ crc16 (a :: fc :: mid) = be16 hi lo))

/-- R152: VALIDATE, every flag, register and completion action, what it leaves unchanged (every byte of RXBUF among
it), its corner cases and its example. -/
def Obligations.ValidateCompletes : Prop :=
  Decodes 0x20 (fun _ => .validate) ∧
  (∀ (s : State) (r : List Byte), rxBytes s = .ok r →
    let sp := splitFrame r
    let fok := !sp.nodata && sp.fc == s.ctx.expFc
    let aok := !sp.nodata && sp.addr == s.ctx.expAddr
    let acc := acceptOf s.params.strictCrcRead s.ctx.op sp.nodata sp.crcok fok aok
    let d := decodePayload (bytesFrom r 3 (3 + sp.plen)) s.ctx.winStart
    ∃ t, exec .validate s = .next t ∧
      t.status.vdone = true ∧ t.status.nodata = sp.nodata ∧ t.status.crcok = sp.crcok ∧
      t.status.fcok = fok ∧ t.status.addrok = aok ∧ t.status.accept = acc ∧
      t.status.cause = causeOf s.params.strictCrcRead s.ctx.op sp.nodata sp.crcok fok aok sp.plen ∧
      t.verdict = ⟨sp.addr, sp.fc, sp.rxCrc, sp.calcCrc, BitVec.ofNat 16 sp.plen⟩ ∧
      (s.ctx.op = .ra → t.status.addrValid = (acc && decide (2 ≤ sp.plen)) ∧
        t.addrResult = if t.status.addrValid then be16 (byteAt r 3) (byteAt r 4) else 0) ∧
      (s.ctx.op ≠ .ra → t.status.addrValid = s.status.addrValid ∧ t.addrResult = s.addrResult) ∧
      (s.ctx.op = .rd ∧ acc = true → t.snap = d.fields ∧ t.status.alarm = d.alarm) ∧
      (¬(s.ctx.op = .rd ∧ acc = true) → t.snap = s.snap ∧ t.status.alarm = s.status.alarm) ∧
      t.crc = s.crc ∧ t.txbuf = s.txbuf ∧ t.txlen = s.txlen ∧ t.ctx = s.ctx ∧ t.rxlen = s.rxlen ∧
      (∀ a, rxByte t a = rxByte s a) ∧ t.rxbuf = s.rxbuf ∧ t.status.errArg = s.status.errArg ∧
      t.status.errIll = s.status.errIll ∧ t.status.rxDrop = s.status.rxDrop ∧
      t.params = s.params ∧ t.hostEvents = s.hostEvents ∧
      (r.length < 4 → t.status.nodata = true ∧ t.snap = s.snap) ∧
      (r.length = 4 → t.verdict.plLen = 0) ∧ (s.ctx.op = .none → t.status.accept = false) ∧
      exec .validate t = .next t) ∧
  (∀ s : State, ParamsOk s.params →
    ∃ t, execSeq (.buildRe 0xF8 :: [0xF8, 0x42, 0xC2, 0x41].map .rxPush ++ [.validate]) s = .next t ∧
      t.status.nodata = false ∧ t.status.crcok = true ∧ t.status.fcok = true ∧
      t.status.addrok = true ∧ t.status.accept = true ∧ causeCode t.status.cause = 0)

/-- R154: the echo check compares both bytes, is false without data, expects the address the request was sent to (for
BUILD_WA the old address), and fails for a function code with bit 7 set. -/
def Obligations.EchoCheckComparesBytes : Prop :=
  (∀ (s : State) (r : List Byte), rxBytes s = .ok r → ∃ t, exec .validate s = .next t ∧
    (t.status.fcok = true ↔ 4 ≤ r.length ∧ byteAt r 1 = s.ctx.expFc) ∧
    (t.status.addrok = true ↔ 4 ≤ r.length ∧ byteAt r 0 = s.ctx.expAddr) ∧
    ((byteAt r 1).getLsbD 7 = true → s.ctx.expFc ∈ [0x00#8, 0x03#8, 0x04#8, 0x06#8, 0x42#8] →
      t.status.fcok = false)) ∧
  (∀ (i : Instr) (p : List Byte) (s : State), acceptedPrefix i = some p →
    ∃ t, exec i s = .next t ∧ p[0]? = some t.ctx.expAddr ∧ p[1]? = some t.ctx.expFc ∧
      t.ctx.expFc ∈ [0x00#8, 0x03#8, 0x04#8, 0x06#8, 0x42#8])

/-- R155: the success condition of each operation. -/
def Obligations.AcceptanceTable : Prop :=
  ∀ strict nodata crcok fok aok : Bool,
    acceptOf strict .none nodata crcok fok aok = false ∧
    (acceptOf strict .rd nodata crcok fok aok = true ↔
      nodata = false ∧ fok = true ∧ aok = true ∧ (crcok = true ∨ strict = false)) ∧
    (acceptOf strict .wa nodata crcok fok aok = true ↔
      nodata = false ∧ crcok = true ∧ fok = true ∧ aok = true) ∧
    (acceptOf strict .ra nodata crcok fok aok = true ↔
      nodata = false ∧ crcok = true ∧ fok = true ∧ aok = true) ∧
    (acceptOf strict .re nodata crcok fok aok = true ↔
      nodata = false ∧ crcok = true ∧ fok = true ∧ aok = true)

/-- R156: which cause code VALIDATE reports, in the order of the rule; after a VALIDATE, ACCEPT = 1 exactly when CAUSE
is 0, 8 or 9. -/
def Obligations.CauseFollowsCheckOrder : Prop :=
  (∀ (strict : Bool) (op : CtxOp) (nodata crcok fok aok : Bool) (plen : Nat),
    let code := causeCode (causeOf strict op nodata crcok fok aok plen)
    let crcBad := (op ≠ .rd ∨ strict = true) ∧ crcok = false
    (code = 1 ↔ nodata = true) ∧
    (code = 5 ↔ nodata = false ∧ op = .none) ∧
    (code = 2 ↔ nodata = false ∧ op ≠ .none ∧ crcBad) ∧
    (code = 3 ↔ nodata = false ∧ op ≠ .none ∧ ¬crcBad ∧ fok = false) ∧
    (code = 4 ↔ nodata = false ∧ op ≠ .none ∧ ¬crcBad ∧ fok = true ∧ aok = false) ∧
    (code = 8 ↔ nodata = false ∧ op = .rd ∧ strict = false ∧ crcok = false ∧ fok = true ∧ aok = true) ∧
    (code = 9 ↔ nodata = false ∧ op = .ra ∧ crcok = true ∧ fok = true ∧ aok = true ∧ plen < 2) ∧
    (code = 0 ↔ nodata = false ∧ op ≠ .none ∧ crcok = true ∧ fok = true ∧ aok = true ∧
      ¬(op = .ra ∧ plen < 2))) ∧
  (∀ (s : State) (r : List Byte), rxBytes s = .ok r → ∃ t, exec .validate s = .next t ∧
    (t.status.accept = true ↔ causeCode t.status.cause ∈ [0#4, 8#4, 9#4]))

/-- R157: under RA, an accepted response with at least two payload bytes loads the big-endian address; any other
leaves it unknown. A 7-byte response has two payload bytes, an accepted one of 5 or 6 bytes gives no address. -/
def Obligations.AddressResultLoads : Prop :=
  ∀ (s : State) (r : List Byte), s.ctx.op = .ra → rxBytes s = .ok r →
    ∃ t, exec .validate s = .next t ∧
      (t.status.accept = true ∧ 2 ≤ (splitFrame r).plen →
        t.addrResult.toNat = 256 * (byteAt r 3).toNat + (byteAt r 4).toNat ∧ t.status.addrValid = true) ∧
      (¬(t.status.accept = true ∧ 2 ≤ (splitFrame r).plen) →
        t.addrResult = 0 ∧ t.status.addrValid = false) ∧
      (r.length ≤ 7 → (splitFrame r).plen ≤ 2) ∧ (r.length = 7 → (splitFrame r).plen = 2) ∧
      (r.length = 5 ∨ r.length = 6 → t.status.addrValid = false)

/-- R158: under RD, an accepted response decodes its payload at the window's start register into the snapshot;
otherwise the snapshot is unchanged. It fails without data and where the echoed bytes do not both match. -/
def Obligations.ReadCompletionDecodes : Prop :=
  ∀ (s : State) (r : List Byte), s.ctx.op = .rd → rxBytes s = .ok r →
    ∃ t, exec .validate s = .next t ∧
      (t.status.accept = true →
        t.snap = (decodePayload ((r.drop 3).take (r.length - 5)) s.ctx.winStart).fields ∧
        t.status.alarm = (decodePayload ((r.drop 3).take (r.length - 5)) s.ctx.winStart).alarm) ∧
      (t.status.accept = false → t.snap = s.snap ∧ t.status.alarm = s.status.alarm) ∧
      (r.length < 4 ∨ byteAt r 0 ≠ s.ctx.expAddr ∨ byteAt r 1 ≠ s.ctx.expFc → t.status.accept = false)

/-- R159: a response of fewer than 4 bytes is never accepted and changes no snapshot and no address result, but that
under RA the address is unknown; VALIDATE leaves RXBUF, RXLEN and the context, so a second one gives the same; its
result depends only on `RXBUF[0..RXLEN)`, the context and STRICT_CRC_READ. -/
def Obligations.ValidatorProperties : Prop :=
  (∀ (s : State) (r : List Byte), rxBytes s = .ok r → r.length < 4 →
    ∃ t, exec .validate s = .next t ∧ t.status.accept = false ∧ t.snap = s.snap ∧
      (s.ctx.op ≠ .ra → t.addrResult = s.addrResult ∧ t.status.addrValid = s.status.addrValid) ∧
      (s.ctx.op = .ra → t.status.addrValid = false ∧ t.addrResult = 0)) ∧
  (∀ s t : State, exec .validate s = .next t → t.rxbuf = s.rxbuf ∧ t.rxlen = s.rxlen ∧ t.ctx = s.ctx ∧
    exec .validate t = .next t) ∧
  (∀ (s s' : State) (r : List Byte), rxBytes s = .ok r → rxBytes s' = .ok r → s.ctx = s'.ctx →
    s.params.strictCrcRead = s'.params.strictCrcRead →
    ∃ t t', exec .validate s = .next t ∧ exec .validate s' = .next t' ∧
      t.verdict = t'.verdict ∧ t.status.nodata = t'.status.nodata ∧ t.status.crcok = t'.status.crcok ∧
      t.status.fcok = t'.status.fcok ∧ t.status.addrok = t'.status.addrok ∧
      t.status.accept = t'.status.accept ∧ t.status.vdone = t'.status.vdone ∧
      t.status.cause = t'.status.cause ∧
      (s.ctx.op = .ra → t.addrResult = t'.addrResult ∧ t.status.addrValid = t'.status.addrValid) ∧
      (s.ctx.op = .rd → t.status.accept = true →
        t.snap = t'.snap ∧ t.status.alarm = t'.status.alarm))

/-! ## Decoding -/

/-- R180: byte `i` of the decode buffer is the payload byte that lands there, else 0x00; the buffer has 20 bytes; a
start register of 10 or more leaves it all zero. -/
def Obligations.FillPlacesPayload : Prop :=
  ∀ (p : List Byte) (s : Half),
    (fill p s).length = 20 ∧
    (∀ i, i < 20 → byteAt (fill p s) i = (landed p s i).getD 0x00) ∧
    (10 ≤ s.toNat → fill p s = List.replicate 20 0x00)

/-- R181: the seven fields as exact numbers of the bytes of the decode buffer, and the alarm. -/
def Obligations.DecodeComposesFields : Prop :=
  ∀ (p : List Byte) (s : Half),
    let reg := fun j => 256 * (byteAt (fill p s) (2 * j)).toNat + (byteAt (fill p s) (2 * j + 1)).toNat
    let d := decodePayload p s
    d.fields.rawV.toNat = reg 0 ∧
    d.fields.rawI.toNat = reg 1 + 65536 * reg 2 ∧
    d.fields.rawP.toNat = reg 3 + 65536 * reg 4 ∧
    d.fields.rawE.toNat = reg 5 + 65536 * reg 6 ∧
    d.fields.rawF.toNat = reg 7 ∧
    d.fields.rawPf.toNat = reg 8 ∧
    d.fields.rawAl.toNat = reg 9 ∧
    (d.alarm = true ↔ reg 9 = 0xFFFF)

/-- R53: a field of two registers is composed low register first, each register big-endian: its 32 bits from the most
significant down are `buf[2k+2], buf[2k+3], buf[2k], buf[2k+1]`. -/
def Obligations.RegisterPairWireOrder : Prop :=
  ∀ (buf : List Byte) (k : Nat),
    (regPair buf k).toNat = (regOf buf k).toNat + (regOf buf (k + 1)).toNat * 2 ^ 16 ∧
    regOf buf k = (byteAt buf (2 * k) ++ byteAt buf (2 * k + 1) : BitVec 16) ∧
    regPair buf k = (byteAt buf (2 * k + 2) ++ byteAt buf (2 * k + 3) ++ byteAt buf (2 * k) ++
      byteAt buf (2 * k + 1) : BitVec 32)

/-- R184: DECODE decodes the whole of `RXBUF[0..RXLEN)` into the snapshot and the alarm and changes nothing else, no
byte of RXBUF either, with its corner cases and its example. -/
def Obligations.DecodeCompletes : Prop :=
  Decodes 0x21 (fun w => .decode (w.setWidth 16)) ∧
  (∀ (s : State) (start : Half) (r : List Byte), rxBytes s = .ok r →
    ∃ t, exec (.decode start) s = .next t ∧ t.snap = (decodePayload r start).fields ∧
      t.status.alarm = (decodePayload r start).alarm ∧
      { t with snap := s.snap, status := { t.status with alarm := s.status.alarm } } = s ∧
      (∀ a, rxByte t a = rxByte s a) ∧
      (s.rxlen = 0 ∨ 10 ≤ start.toNat → t.snap = ⟨0, 0, 0, 0, 0, 0, 0⟩ ∧ t.status.alarm = false) ∧
      t.snap = (decodePayload (r.take (20 - 2 * start.toNat)) start).fields) ∧
  (∀ (x : Byte) (start : Half), start.toNat < 10 →
    regOf (fill [x] start) start.toNat = x.setWidth 16 <<< 8) ∧
  (∀ s : State, 2 ≤ pushLimit s →
    ∃ t, execSeq (rxLoad [0x08, 0xF5] ++ [.decode 7]) s = .next t ∧
      t.snap = ⟨0, 0, 0, 0, 2293, 0, 0⟩)

/-- R186: the decoder's properties: the empty payload, the two offsets, the alarm, and that each field depends only on
the payload bytes that land in its range. -/
def Obligations.DecoderProperties : Prop :=
  decodePayload [] 0 = ⟨⟨0, 0, 0, 0, 0, 0, 0⟩, false⟩ ∧
  (decodePayload [0x08, 0xF5] 0).fields.rawV = 2293 ∧
  (decodePayload [0x08, 0xF5] 7).fields.rawF = 2293 ∧ (decodePayload [0x08, 0xF5] 7).fields.rawV = 0 ∧
  (∀ (p : List Byte) (s : Half),
    (decodePayload p s).alarm = true ↔ (decodePayload p s).fields.rawAl = 0xFFFF#16) ∧
  (∀ (p q : List Byte) (s : Half),
    let agree := fun lo hi => ∀ i, lo ≤ i → i < hi → landed p s i = landed q s i
    let d := (decodePayload p s).fields
    let e := (decodePayload q s).fields
    (agree 0 2 → d.rawV = e.rawV) ∧ (agree 2 6 → d.rawI = e.rawI) ∧ (agree 6 10 → d.rawP = e.rawP) ∧
    (agree 10 14 → d.rawE = e.rawE) ∧ (agree 14 16 → d.rawF = e.rawF) ∧
    (agree 16 18 → d.rawPf = e.rawPf) ∧
    (agree 18 20 → d.rawAl = e.rawAl ∧ (decodePayload p s).alarm = (decodePayload q s).alarm))

/-- Only DECODE, an accepted VALIDATE under RD, and SRST change the snapshot or the alarm (derived: R29, R158, R183,
R201). -/
def Obligations.SnapshotWriters : Prop :=
  (∀ (i : Instr) (s t : State), exec i s = .next t →
    t.snap ≠ s.snap ∨ t.status.alarm ≠ s.status.alarm →
    (∃ start, i = .decode start) ∨ (i = .validate ∧ s.ctx.op = .rd ∧ t.status.accept = true) ∨
      i = .srst) ∧
  (∀ s t : State, execIllegal s = .next t → t.snap = s.snap ∧ t.status.alarm = s.status.alarm)

/-- The engineering values are the exact rationals `raw / divisor` with the divisors of R182 (derived: R182, R185). -/
def Obligations.EngineeringValuesExact : Prop :=
  ∀ d : Snapshot,
    voltage d * 10 = d.rawV.toNat ∧ current d * 1000 = d.rawI.toNat ∧ power d * 10 = d.rawP.toNat ∧
    energy d = d.rawE.toNat ∧ frequency d * 10 = d.rawF.toNat ∧ powerFactor d * 100 = d.rawPf.toNat

/-! ## The register port -/

/-- R27: the register map: what each address reads, field by field, and that every address not listed reads 0x0000.
A read is a function of the state, so it has no side effect. -/
def Obligations.PortMap : Prop :=
  ∀ s : State,
    readPort s 0x00 = statusWord s.status ∧
    readPort s 0x01 = s.crc ∧ (readPort s 0x02).toNat = s.txlen.toNat ∧
    (readPort s 0x03).toNat = s.rxlen % 65536 ∧
    (readPort s 0x04).extractLsb' 0 3 = ctxCode s.ctx.op ∧ (readPort s 0x04).extractLsb' 3 5 = 0 ∧
    (readPort s 0x04).extractLsb' 8 8 = s.ctx.expFc ∧
    (readPort s 0x05).toNat = s.ctx.expAddr.toNat ∧
    (readPort s 0x06).toNat = s.ctx.expLen.toNat % 65536 ∧
    (readPort s 0x07).toNat = s.ctx.expLen.toNat / 65536 ∧ readPort s 0x08 = s.ctx.winStart ∧
    (readPort s 0x09).extractLsb' 0 8 = s.verdict.addr ∧
    (readPort s 0x09).extractLsb' 8 8 = s.verdict.fc ∧ readPort s 0x0A = s.verdict.rxCrc ∧
    readPort s 0x0B = s.verdict.calcCrc ∧ readPort s 0x0C = s.verdict.plLen ∧
    readPort s 0x0D = s.addrResult ∧ readPort s 0x10 = s.snap.rawV ∧
    (readPort s 0x11).toNat = s.snap.rawI.toNat % 65536 ∧
    (readPort s 0x12).toNat = s.snap.rawI.toNat / 65536 ∧
    (readPort s 0x13).toNat = s.snap.rawP.toNat % 65536 ∧
    (readPort s 0x14).toNat = s.snap.rawP.toNat / 65536 ∧
    (readPort s 0x15).toNat = s.snap.rawE.toNat % 65536 ∧
    (readPort s 0x16).toNat = s.snap.rawE.toNat / 65536 ∧ readPort s 0x17 = s.snap.rawF ∧
    readPort s 0x18 = s.snap.rawPf ∧ readPort s 0x19 = s.snap.rawAl ∧
    (∀ i : Fin 8, (readPort s (BitVec.ofNat 8 (0x20 + i.val))).toNat = (s.txbuf[i]).toNat) ∧
    (∀ addr : Byte, addr.toNat = 0x0E ∨ addr.toNat = 0x0F ∨
      (0x1A ≤ addr.toNat ∧ addr.toNat ≤ 0x1F) ∨ 0x28 ≤ addr.toNat → readPort s addr = 0x0000#16)

/-- A value wider than 16 bits is read as two registers, the low half at the lower address (derived: R27, R55). -/
def Obligations.PortSplitsWideValues : Prop :=
  ∀ s : State,
    (readPort s 0x12 ++ readPort s 0x11 : BitVec 32) = s.snap.rawI ∧
    (readPort s 0x14 ++ readPort s 0x13 : BitVec 32) = s.snap.rawP ∧
    (readPort s 0x16 ++ readPort s 0x15 : BitVec 32) = s.snap.rawE ∧
    65536 * (readPort s 0x07).toNat + (readPort s 0x06).toNat = s.ctx.expLen.toNat

/-- STATUS: the place of each flag, bit 11 reads 0, CAUSE in bits 15:12 with the codes of R210 (derived: R28, R210). -/
def Obligations.StatusLayout : Prop :=
  (∀ s : State,
    let w := readPort s 0x00
    w.getLsbD 0 = s.status.nodata ∧ w.getLsbD 1 = s.status.crcok ∧ w.getLsbD 2 = s.status.fcok ∧
    w.getLsbD 3 = s.status.addrok ∧ w.getLsbD 4 = s.status.accept ∧ w.getLsbD 5 = s.status.vdone ∧
    w.getLsbD 6 = s.status.addrValid ∧ w.getLsbD 7 = s.status.alarm ∧ w.getLsbD 8 = s.status.errArg ∧
    w.getLsbD 9 = s.status.errIll ∧ w.getLsbD 10 = s.status.rxDrop ∧ w.getLsbD 11 = false ∧
    w.extractLsb' 12 4 = causeCode s.status.cause) ∧
  [Cause.none, .noData, .crcMismatch, .fcMismatch, .addrMismatch, .noContext, .invalidArgument,
    .illegalCommand, .crcAdvisory, .shortPayload].map (fun c => (causeCode c).toNat) = List.range 10

/-! ## The whole machine -/

/-- Every step keeps the invariant: the receive buffer in canonical form and readable up to RXLEN, the transmit frame
and the context of one request, the verdict flags and ALARM tied to their registers (derived: R9, R23, R24, R25, R28,
R30, R151). -/
def Obligations.StepKeepsInvariant : Prop :=
  ∀ s t : State, MachineInv s → step s = .next t → MachineInv t

/-- Every command completes: from every state that meets the invariant, a step and each command answers a next state
(derived: R12, R24, R52, R213). -/
def Obligations.EveryCommandCompletes : Prop :=
  ∀ s : State, MachineInv s → (∃ t, step s = .next t) ∧ ∀ i : Instr, ∃ t, exec i s = .next t

/-- R33: no command and no reset changes the parameters. -/
def Obligations.ParametersFixed : Prop :=
  (∀ s t : State, step s = .next t → t.params = s.params) ∧
  (∀ (i : Instr) (s t : State), exec i s = .next t → t.params = s.params) ∧
  (∀ s : State, (hardwareReset s).params = s.params)

/-- No command changes what the host does next, and a step takes one event off the host's list (derived: R21, R50, R62;
the list is the model's own, log entry 1). -/
def Obligations.CommandsAreTheHosts : Prop :=
  (∀ (i : Instr) (s t : State), exec i s = .next t → t.hostEvents = s.hostEvents) ∧
  (∀ s t : State, step s = .next t → t.hostEvents = s.hostEvents.tail)

/-- R22: CRC_INIT, CRC_BYTE, SRST and reset write CRC; no other command writes it, and none reads it: with another
accumulator value it does the same. The builders and the validator compute their CRCs with Crc16. -/
def Obligations.CrcAccumulatorIsolated : Prop :=
  (∀ (i : Instr) (s t : State), exec i s = .next t → i ≠ .crcInit → (∀ b, i ≠ .crcByte b) → i ≠ .srst →
    t.crc = s.crc ∧ ∀ c : Half, exec i { s with crc := c } = .next { t with crc := c }) ∧
  (∀ (s : State) (b : Byte), ∃ t, exec (.crcByte b) s = .next t ∧ t.crc = crc16Step s.crc b) ∧
  (∀ s : State, ∃ t, exec .crcInit s = .next t ∧ t.crc = 0xFFFF#16) ∧
  (∀ s : State, ∃ t, exec .srst s = .next t ∧ t.crc = 0xFFFF#16 ∧ (hardwareReset s).crc = 0xFFFF#16) ∧
  (∀ (s t : State), execIllegal s = .next t → t.crc = s.crc) ∧
  (∀ (i : Instr) (p : List Byte) (s : State), acceptedPrefix i = some p →
    ∃ t, exec i s = .next t ∧ txFrame t = p ++ [lo8 (crc16 p), hi8 (crc16 p)] ∧ t.crc = s.crc) ∧
  (∀ (s : State) (r : List Byte), rxBytes s = .ok r → 4 ≤ r.length →
    ∃ t, exec .validate s = .next t ∧ t.verdict.calcCrc = crc16 (r.take (r.length - 2)) ∧ t.crc = s.crc)

/-- Only the build commands, VALIDATE, SRST and an illegal command write CAUSE (derived: R210). -/
def Obligations.CauseWriters : Prop :=
  ∀ (i : Instr) (s t : State), exec i s = .next t → isBuild i = false → i ≠ .validate → i ≠ .srst →
    t.status.cause = s.status.cause

/-- The sticky flags: once set, ERR_ARG lasts until an accepted build or a reset, RX_DROP until RX_CLEAR, a build or a
reset, ERR_ILL until a reset, across illegal commands too (derived: R28, R211). -/
def Obligations.StickyFlagsLast : Prop :=
  (∀ (i : Instr) (s t : State), exec i s = .next t → i ≠ .srst →
    (s.status.errIll = true → t.status.errIll = true) ∧
    (s.status.errArg = true → acceptedPrefix i = none → t.status.errArg = true) ∧
    (s.status.rxDrop = true → i ≠ .rxClear → isBuild i = false → t.status.rxDrop = true)) ∧
  (∀ s t : State, execIllegal s = .next t → t.status.errIll = true ∧
    t.status.errArg = s.status.errArg ∧ t.status.rxDrop = s.status.rxDrop)

/-- No command reads a STATUS flag as an input: from states that differ only in their flags, a command answers states
that differ at most in flags the command leaves alone (derived: R31). -/
def Obligations.FlagsAreNoInput : Prop :=
  ∀ (i : Instr) (s t : State) (st : Status), exec i s = .next t →
    ∃ t', exec i { s with status := st } = .next t' ∧ { t' with status := t.status } = t ∧
      (∀ flag ∈ [Status.nodata, Status.crcok, Status.fcok, Status.addrok, Status.accept, Status.vdone,
          Status.addrValid, Status.alarm, Status.errArg, Status.errIll, Status.rxDrop],
        flag t'.status = flag t.status ∨ (flag t'.status = flag st ∧ flag t.status = flag s.status)) ∧
      (t'.status.cause = t.status.cause ∨
        (t'.status.cause = st.cause ∧ t.status.cause = s.status.cause))

/-- TXBUF and TXLEN are written only by the build commands and SRST; a byte of RXBUF only by SRST and by RX_PUSH, at
index RXLEN (derived: R23, R50, R201). -/
def Obligations.BufferWriters : Prop :=
  ∀ (i : Instr) (s t : State), exec i s = .next t → i ≠ .srst →
    (isBuild i = false → t.txbuf = s.txbuf ∧ t.txlen = s.txlen) ∧
    (∀ a, rxByte t a ≠ rxByte s a → a = s.rxlen ∧ ∃ b, i = .rxPush b ∧ rxByte t a = .ok b)

/-- VALIDATE, DECODE, NOP, CRC_INIT and every build command are idempotent; RX_PUSH and CRC_BYTE are not (derived:
R56). -/
def Obligations.IdempotentCommands : Prop :=
  (∀ (i : Instr) (s t : State), i = .validate ∨ (∃ start, i = .decode start) ∨ i = .nop ∨ i = .crcInit ∨
    isBuild i = true → exec i s = .next t → exec i t = .next t) ∧
  (∃ (b : Byte) (s t : State), exec (.rxPush b) s = .next t ∧ exec (.rxPush b) t ≠ .next t) ∧
  (∃ (b : Byte) (s t : State), exec (.crcByte b) s = .next t ∧ exec (.crcByte b) t ≠ .next t)

/-- A byte of RXBUF at or above RXLEN is never read: with other contents there, every command but SRST does the same
to everything else, and the contents change alike (derived: R24, R32). -/
def Obligations.StaleBytesUnobservable : Prop :=
  ∀ (i : Instr) (s t : State) (m : Memory), exec i s = .next t → i ≠ .srst →
    (∀ j, j < s.rxlen → memRead s.params.rxCap m j = rxByte s j) →
    ∃ t', exec i { s with rxbuf := m } = .next t' ∧ { t' with rxbuf := t.rxbuf } = t ∧
      ∀ j, j < t.rxlen → rxByte t' j = rxByte t j

/-- A read exchange from any state: after BUILD_RD, a response that echoes the request and carries two bytes a
register, with its CRC, is accepted and its payload decoded at the start register (derived: R122, R151–R158, R181,
R231). -/
def Obligations.ReadExchangeDecodesPayload : Prop :=
  ∀ (s : State) (a b2 : Byte) (start count : Half) (payload : List Byte),
    payload.length = 2 * count.toNat → 2 * count.toNat + 5 ≤ s.params.rxCap → s.params.rxCap ≤ 65535 →
    ∃ t, execSeq (.buildRd a start count ::
        (buildFrame (a :: 0x04 :: b2 :: payload)).map .rxPush ++ [.validate]) s = .next t ∧
      t.status.accept = true ∧ t.status.crcok = true ∧ t.status.cause = .none ∧
      t.status.rxDrop = false ∧ t.verdict.plLen.toNat = payload.length ∧
      t.snap = (decodePayload payload start).fields ∧ t.status.alarm = (decodePayload payload start).alarm

/-- An address read from any state: after BUILD_RA, the 7-byte response that carries an address is accepted and loads
it (derived: R126, R151–R157, R231). -/
def Obligations.AddressExchangeLoadsAddress : Prop :=
  ∀ (s : State) (a b2 : Byte) (n : Half), ParamsOk s.params →
    ∃ t, execSeq (.buildRa a ::
        (buildFrame [a, 0x03, b2, hi8 n, lo8 n]).map .rxPush ++ [.validate]) s = .next t ∧
      t.status.accept = true ∧ t.status.cause = .none ∧ t.status.addrValid = true ∧
      t.addrResult = n ∧ t.snap = s.snap
end

