-- ==== Sys2Proof/Laws/Crc.lean ====
section
/-! SUPPORT. The small lemmas of the CRC functions and the frame builder. -/

namespace Sys2Proof.Machine

@[simp] theorem crc16_nil : crc16 [] = 0xFFFF#16 := rfl

theorem crc16_append (p q : List Byte) : crc16 (p ++ q) = q.foldl crc16Step (crc16 p) := by
  simp [crc16]

@[simp] theorem crcBytes_length (c : Half) : (crcBytes c).length = 2 := rfl

@[simp] theorem buildFrame_length (p : List Byte) : (buildFrame p).length = p.length + 2 := by
  simp [buildFrame]

/-- Splitting a half word and composing it again (R11). -/
@[simp] theorem be16_hi8_lo8 (v : Half) : be16 (hi8 v) (lo8 v) = v := by
  ext i hi
  simp only [be16, hi8, lo8, BitVec.getElem_or, BitVec.getElem_shiftLeft, BitVec.getElem_setWidth,
    BitVec.getLsbD_extractLsb']
  by_cases h : i < 8
  · simp [h, BitVec.getLsbD_eq_getElem hi]
  · have h8 : 8 + (i - 8) = i := by omega
    have h9 : i - 8 < 8 := by omega
    simp [h, h8, h9, BitVec.getLsbD_eq_getElem hi]

end Sys2Proof.Machine
end

