-- ==== Sys2Proof/Laws/Decode.lean ====
section
/-! SUPPORT. The fields of an assembled word (30_encoding.md R71, R75). -/

namespace Sys2Proof

theorem assemble_getLsbD (o a : Byte) (h l : Half) (i : Nat) :
    (assemble o a h l).getLsbD i =
      ((decide (i < 48) && !decide (i < 40) && o.getLsbD (i - 40)) ||
       (decide (i < 48) && !decide (i < 32) && a.getLsbD (i - 32)) ||
       (decide (i < 48) && !decide (i < 16) && h.getLsbD (i - 16)) ||
       (decide (i < 48) && l.getLsbD i)) := by
  by_cases hi : i < 48
  · simp [assemble, hi]
  · simp [assemble, hi]

@[simp] theorem fieldOpc_assemble (o a : Byte) (h l : Half) : fieldOpc (assemble o a h l) = o := by
  apply BitVec.eq_of_getLsbD_eq
  intro i hi
  have ha : a.getLsbD (40 + i - 32) = false := BitVec.getLsbD_of_ge _ _ (by omega)
  have hh : h.getLsbD (40 + i - 16) = false := BitVec.getLsbD_of_ge _ _ (by omega)
  have hl : l.getLsbD (40 + i) = false := BitVec.getLsbD_of_ge _ _ (by omega)
  have hw : 40 + i < 48 := by omega
  rw [fieldOpc, BitVec.getLsbD_extractLsb', assemble_getLsbD]
  simp [-BitVec.getLsbD_eq_getElem, hi, ha, hh, hl, hw]

@[simp] theorem fieldA_assemble (o a : Byte) (h l : Half) : fieldA (assemble o a h l) = a := by
  apply BitVec.eq_of_getLsbD_eq
  intro i hi
  have hh : h.getLsbD (32 + i - 16) = false := BitVec.getLsbD_of_ge _ _ (by omega)
  have hl : l.getLsbD (32 + i) = false := BitVec.getLsbD_of_ge _ _ (by omega)
  have hw : 32 + i < 48 := by omega
  have hw' : 32 + i < 40 := by omega
  rw [fieldA, BitVec.getLsbD_extractLsb', assemble_getLsbD]
  simp [-BitVec.getLsbD_eq_getElem, hi, hh, hl, hw, hw']

@[simp] theorem fieldH_assemble (o a : Byte) (h l : Half) : fieldH (assemble o a h l) = h := by
  apply BitVec.eq_of_getLsbD_eq
  intro i hi
  have h1 : 16 + i < 48 := by omega
  have h2 : 16 + i < 40 := by omega
  have h3 : 16 + i < 32 := by omega
  rw [fieldH, BitVec.getLsbD_extractLsb', assemble_getLsbD]
  simp [-BitVec.getLsbD_eq_getElem, hi, h1, h2, h3]

@[simp] theorem fieldL_assemble (o a : Byte) (h l : Half) : fieldL (assemble o a h l) = l := by
  apply BitVec.eq_of_getLsbD_eq
  intro i hi
  have h1 : i < 48 := by omega
  have h2 : i < 40 := by omega
  have h3 : i < 32 := by omega
  rw [fieldL, BitVec.getLsbD_extractLsb', assemble_getLsbD]
  simp [-BitVec.getLsbD_eq_getElem, hi, h1, h2, h3]

@[simp] theorem fieldB_assemble (o a : Byte) (h l : Half) :
    fieldB (assemble o a h l) = l.setWidth 8 := by
  apply BitVec.eq_of_getLsbD_eq
  intro i hi
  have h1 : i < 48 := by omega
  have h2 : i < 40 := by omega
  have h3 : i < 32 := by omega
  have h4 : i < 16 := by omega
  rw [fieldB, BitVec.getLsbD_extractLsb', assemble_getLsbD]
  simp [-BitVec.getLsbD_eq_getElem, hi, h1, h2, h3, h4]

theorem fieldOpc_eq (w : Command) : fieldOpc w = (w >>> 40).setWidth 8 := by
  apply BitVec.eq_of_getLsbD_eq
  intro i _
  rw [fieldOpc, BitVec.getLsbD_extractLsb', BitVec.getLsbD_setWidth, BitVec.getLsbD_ushiftRight]

theorem fieldA_eq (w : Command) : fieldA w = (w >>> 32).setWidth 8 := by
  apply BitVec.eq_of_getLsbD_eq
  intro i _
  rw [fieldA, BitVec.getLsbD_extractLsb', BitVec.getLsbD_setWidth, BitVec.getLsbD_ushiftRight]

theorem fieldH_eq (w : Command) : fieldH w = (w >>> 16).setWidth 16 := by
  apply BitVec.eq_of_getLsbD_eq
  intro i _
  rw [fieldH, BitVec.getLsbD_extractLsb', BitVec.getLsbD_setWidth, BitVec.getLsbD_ushiftRight]

theorem fieldL_eq (w : Command) : fieldL w = w.setWidth 16 := by
  apply BitVec.eq_of_getLsbD_eq
  intro i _
  rw [fieldL, BitVec.getLsbD_extractLsb', BitVec.getLsbD_setWidth, Nat.zero_add]

theorem fieldB_eq (w : Command) : fieldB w = w.setWidth 8 := by
  apply BitVec.eq_of_getLsbD_eq
  intro i _
  rw [fieldB, BitVec.getLsbD_extractLsb', BitVec.getLsbD_setWidth, Nat.zero_add]

/-- The decoder reads the command off its opcode. -/
theorem opcodeOf_of_decode {w : Command} {i : Instr} (h : decode w = .ok i) : fieldOpc w = opcodeOf i := by
  unfold decode at h
  split at h <;> first | (cases h; assumption) | (cases h)

/-- A word is assembled from its four fields. -/
theorem assemble_fields (w : Command) :
    assemble (fieldOpc w) (fieldA w) (fieldH w) (fieldL w) = w := by
  apply BitVec.eq_of_getLsbD_eq
  intro k hk
  rw [assemble_getLsbD]
  simp only [fieldOpc, fieldA, fieldH, fieldL, BitVec.getLsbD_extractLsb']
  by_cases h1 : k < 16
  · have h2 : k < 40 := by omega
    have h3 : k < 32 := by omega
    simp [-BitVec.getLsbD_eq_getElem, h1, h2, h3, hk]
  · by_cases h2 : k < 32
    · have h3 : k < 40 := by omega
      have h4 : k - 16 < 16 := by omega
      have h5 : 16 + (k - 16) = k := by omega
      simp [-BitVec.getLsbD_eq_getElem, h1, h2, h3, h4, h5, hk]
    · by_cases h3 : k < 40
      · have h4 : k - 32 < 8 := by omega
        have h5 : 32 + (k - 32) = k := by omega
        have h6 : ¬ (k - 16 < 16) := by omega
        simp [-BitVec.getLsbD_eq_getElem, h1, h2, h3, h4, h5, h6, hk]
      · have h4 : k - 40 < 8 := by omega
        have h5 : 40 + (k - 40) = k := by omega
        have h6 : ¬ (k - 16 < 16) := by omega
        have h7 : ¬ (k - 32 < 8) := by omega
        simp [-BitVec.getLsbD_eq_getElem, h1, h2, h3, h4, h5, h6, h7, hk]

end Sys2Proof
end

