-- ==== Sys2Proof/Laws/Memory.lean ====
section
/-! SUPPORT. The receive buffer's contents: a read after a write, the canonical form, and what reading
`RXBUF[0..RXLEN)` answers. -/

namespace Sys2Proof.Machine

@[simp] theorem memLookup_nil (i : Nat) : memLookup [] i = none := rfl

@[simp] theorem memLookup_cons (c : Host.Cell) (m : Memory) (i : Nat) :
    memLookup (c :: m) i = if c.1 = i then some c.2 else memLookup m i := rfl

/-- A read after a write to the same index gives the value written. -/
@[simp] theorem memLookup_memInsert_self (m : Memory) (i : Nat) (v : Byte) :
    memLookup (memInsert m i v) i = some v := by
  induction m with
  | nil => simp [memInsert]
  | cons c m ih =>
    simp only [memInsert]
    split
    · simp
    · split
      · simp
      · simp_all

/-- A write leaves every other index alone. -/
theorem memLookup_memInsert_of_ne (m : Memory) {i j : Nat} (v : Byte) (h : i ≠ j) :
    memLookup (memInsert m i v) j = memLookup m j := by
  induction m with
  | nil => simp [memInsert, h]
  | cons c m ih =>
    simp only [memInsert]
    split
    · simp [h]
    · split
      · simp_all
      · simp [ih]

/-- The indices listed after a write. -/
theorem mem_memInsert {m : Memory} {i : Nat} {v : Byte} {c : Host.Cell} (h : c ∈ memInsert m i v) :
    c = (i, v) ∨ c ∈ m := by
  induction m with
  | nil => simpa [memInsert] using h
  | cons d m ih =>
    simp only [memInsert] at h
    split at h
    · simpa using h
    · split at h
      · rcases List.mem_cons.1 h with h | h
        · exact .inl h
        · exact .inr (List.mem_cons_of_mem _ h)
      · rcases List.mem_cons.1 h with h | h
        · exact .inr (h ▸ List.mem_cons_self ..)
        · rcases ih h with h | h
          · exact .inl h
          · exact .inr (List.mem_cons_of_mem _ h)

theorem memory_wf_cons (c : Host.Cell) (m : Memory) :
    Memory.wf (c :: m) = true ↔ (∀ d ∈ m.head?, c.1 < d.1) ∧ Memory.wf m = true := by
  cases m <;> simp [Memory.wf]

/-- The index a write leaves first is the written one or the one that was first. -/
theorem head_memInsert (m : Memory) (i : Nat) (v : Byte) :
    ∀ d ∈ (memInsert m i v).head?, d.1 = i ∨ d ∈ m.head? := by
  cases m with
  | nil => simp [memInsert]
  | cons c m => simp only [memInsert]; split <;> [skip; split] <;> simp

/-- A write keeps the canonical form. -/
theorem memInsert_wf {m : Memory} (i : Nat) (v : Byte) (h : Memory.wf m = true) :
    Memory.wf (memInsert m i v) = true := by
  induction m with
  | nil => rfl
  | cons c m ih =>
    have hm := (memory_wf_cons c m).1 h
    simp only [memInsert]
    split
    · simp_all [memory_wf_cons]
    · split
      · rename_i heq; subst heq; simpa [memory_wf_cons] using hm
      · refine (memory_wf_cons _ _).2 ⟨fun d hd => ?_, ih hm.2⟩
        rcases head_memInsert m i v d hd with hd | hd
        · omega
        · exact hm.1 d hd

/-- `memWrite` keeps the canonical form, whatever it writes. -/
theorem memWrite_wf {cap : Nat} {m m' : Memory} {i : Nat} {v : Byte} (h : Memory.wf m = true)
    (hw : memWrite cap m i v = .ok m') : Memory.wf m' = true := by
  unfold memWrite at hw
  split at hw
  · cases hw; exact memInsert_wf i v h
  · cases hw

/-- `memWrite` answers exactly below the capacity. -/
theorem memWrite_ok {cap : Nat} {i : Nat} (m : Memory) (v : Byte) (h : i < cap) :
    memWrite cap m i v = .ok (memInsert m i v) := if_pos h

theorem memRead_memInsert (cap : Nat) (m : Memory) (i j : Nat) (v : Byte) :
    memRead cap (memInsert m i v) j =
      if j = i ∧ i < cap then .ok v else memRead cap m j := by
  unfold memRead
  by_cases hj : j = i
  · subst hj; by_cases hc : j < cap <;> simp [hc]
  · simp [hj, memLookup_memInsert_of_ne m v (Ne.symm hj)]

theorem reset_memory_wf : Memory.wf State.reset.rxbuf = true := rfl

/-- Reading a range answers exactly when every byte of it can be read, and then with those bytes in order. -/
theorem memReadRange_ok_iff (cap : Nat) (m : Memory) (i n : Nat) (r : List Byte) :
    memReadRange cap m i n = .ok r ↔
      r.length = n ∧ ∀ j (h : j < r.length), memRead cap m (i + j) = .ok r[j] := by
  induction n generalizing i r with
  | zero =>
    constructor
    · intro h; cases h; simp
    · rintro ⟨h, -⟩; rw [List.length_eq_zero_iff.1 h]; rfl
  | succ n ih =>
    simp only [memReadRange]
    constructor
    · intro h
      split at h
      · cases h
      · rename_i b hb
        split at h
        · cases h
        · rename_i bs hbs
          cases h
          obtain ⟨hl, hr⟩ := (ih (i + 1) bs).1 hbs
          refine ⟨by simp [hl], fun j hj => ?_⟩
          cases j with
          | zero => simpa using hb
          | succ j =>
            have := hr j (by simpa using hj)
            simpa [Nat.add_assoc, Nat.add_comm 1 j] using this
    · rintro ⟨hl, hr⟩
      cases r with
      | nil => simp at hl
      | cons b bs =>
        have h0 : memRead cap m i = .ok b := hr 0 (by simp)
        have h1 : memReadRange cap m (i + 1) n = .ok bs := by
          refine (ih (i + 1) bs).2 ⟨by simpa using hl, fun j hj => ?_⟩
          have := hr (j + 1) (by simpa using hj)
          simpa [Nat.add_assoc, Nat.add_comm 1 j] using this
        simp [h0, h1]

/-- `RXBUF[0..RXLEN)` is `r` exactly when `r` has RXLEN bytes and each index below reads as its byte. -/
theorem rxBytes_ok_iff (s : State) (r : List Byte) :
    rxBytes s = .ok r ↔ r.length = s.rxlen ∧ ∀ j (h : j < r.length), rxByte s j = .ok r[j] := by
  simpa [rxBytes, rxByte] using memReadRange_ok_iff s.params.rxCap s.rxbuf 0 s.rxlen r

theorem rxBytes_length {s : State} {r : List Byte} (h : rxBytes s = .ok r) : r.length = s.rxlen :=
  ((rxBytes_ok_iff s r).1 h).1

/-- Where every byte below RXLEN has been written, `RXBUF[0..RXLEN)` can be read. -/
theorem rxBytes_exists {s : State} (h : ∀ i, i < s.rxlen → ∃ b, rxByte s i = .ok b) :
    ∃ r, rxBytes s = .ok r := by
  have hb : ∀ i, i < s.rxlen → rxByte s i = .ok ((rxByte s i).toOption.getD 0) := by
    intro i hi
    obtain ⟨b, hb⟩ := h i hi
    simp [hb, Except.toOption]
  refine ⟨List.ofFn fun i : Fin s.rxlen => (rxByte s i).toOption.getD 0, ?_⟩
  rw [rxBytes_ok_iff]
  exact ⟨by simp, fun j hj => by simpa using hb j (by simpa using hj)⟩

/-- What is read depends on the bytes below RXLEN only. -/
theorem rxBytes_congr {s t : State} (hl : t.rxlen = s.rxlen)
    (hb : ∀ i, i < s.rxlen → rxByte t i = rxByte s i) : rxBytes t = rxBytes s := by
  have key : ∀ n i, i + n ≤ s.rxlen →
      memReadRange t.params.rxCap t.rxbuf i n = memReadRange s.params.rxCap s.rxbuf i n := by
    intro n
    induction n with
    | zero => intros; rfl
    | succ n ih =>
      intro i hi
      have h0 : memRead t.params.rxCap t.rxbuf i = memRead s.params.rxCap s.rxbuf i := hb i (by omega)
      simp only [memReadRange, h0, ih (i + 1) (by omega)]
  simpa [rxBytes, hl] using key s.rxlen 0 (by omega)

end Sys2Proof.Machine
end

