-- ==== Sys2Proof/Laws/State.lean ====
section
/-! SUPPORT. What each shared update of the state does to each field: one lemma per field, true by rfl, so that no
proof unfolds a record update. -/

namespace Sys2Proof.Machine

/-! `raise` writes the cause and nothing else (R12). -/

section
variable (c : Cause) (s : State)

@[simp] theorem raise_params : (raise c s).params = s.params := rfl
@[simp] theorem raise_crc : (raise c s).crc = s.crc := rfl
@[simp] theorem raise_txbuf : (raise c s).txbuf = s.txbuf := rfl
@[simp] theorem raise_txlen : (raise c s).txlen = s.txlen := rfl
@[simp] theorem raise_rxbuf : (raise c s).rxbuf = s.rxbuf := rfl
@[simp] theorem raise_rxlen : (raise c s).rxlen = s.rxlen := rfl
@[simp] theorem raise_ctx : (raise c s).ctx = s.ctx := rfl
@[simp] theorem raise_verdict : (raise c s).verdict = s.verdict := rfl
@[simp] theorem raise_status : (raise c s).status = { s.status with cause := c } := rfl
@[simp] theorem raise_addrResult : (raise c s).addrResult = s.addrResult := rfl
@[simp] theorem raise_snap : (raise c s).snap = s.snap := rfl
@[simp] theorem raise_hostEvents : (raise c s).hostEvents = s.hostEvents := rfl

end

/-! What a build command discards (R121). -/

section
variable (s : State)

@[simp] theorem discardExchange_params : (discardExchange s).params = s.params := rfl
@[simp] theorem discardExchange_crc : (discardExchange s).crc = s.crc := rfl
@[simp] theorem discardExchange_txbuf : (discardExchange s).txbuf = s.txbuf := rfl
@[simp] theorem discardExchange_txlen : (discardExchange s).txlen = s.txlen := rfl
@[simp] theorem discardExchange_rxbuf : (discardExchange s).rxbuf = s.rxbuf := rfl
@[simp] theorem discardExchange_rxlen : (discardExchange s).rxlen = 0 := rfl
@[simp] theorem discardExchange_ctx : (discardExchange s).ctx = s.ctx := rfl
@[simp] theorem discardExchange_verdict : (discardExchange s).verdict = Verdict.empty := rfl
@[simp] theorem discardExchange_status : (discardExchange s).status =
    { s.status with
      nodata := false, crcok := false, fcok := false, addrok := false, accept := false, vdone := false,
      addrValid := false, rxDrop := false } := rfl
@[simp] theorem discardExchange_addrResult : (discardExchange s).addrResult = 0 := rfl
@[simp] theorem discardExchange_snap : (discardExchange s).snap = s.snap := rfl
@[simp] theorem discardExchange_hostEvents : (discardExchange s).hostEvents = s.hostEvents := rfl

end

/-! `Begin` (R121). -/

section
variable (op : CtxOp) (a : Byte) (p : List Byte) (e : BitVec 18) (w : Half) (s : State)

@[simp] theorem beginExchange_params : (beginExchange op a p e w s).params = s.params := rfl
@[simp] theorem beginExchange_crc : (beginExchange op a p e w s).crc = s.crc := rfl
@[simp] theorem beginExchange_txbuf : (beginExchange op a p e w s).txbuf = txImage (buildFrame p) := rfl
@[simp] theorem beginExchange_txlen : (beginExchange op a p e w s).txlen = BitVec.ofNat 4 (buildFrame p).length := rfl
@[simp] theorem beginExchange_rxbuf : (beginExchange op a p e w s).rxbuf = s.rxbuf := rfl
@[simp] theorem beginExchange_rxlen : (beginExchange op a p e w s).rxlen = 0 := rfl
@[simp] theorem beginExchange_ctx : (beginExchange op a p e w s).ctx = ⟨op, a, functionCode op, e, w⟩ := rfl
@[simp] theorem beginExchange_verdict : (beginExchange op a p e w s).verdict = Verdict.empty := rfl
@[simp] theorem beginExchange_status : (beginExchange op a p e w s).status =
    { s.status with
      nodata := false, crcok := false, fcok := false, addrok := false, accept := false, vdone := false,
      addrValid := false, rxDrop := false, errArg := false, cause := .none } := rfl
@[simp] theorem beginExchange_addrResult : (beginExchange op a p e w s).addrResult = 0 := rfl
@[simp] theorem beginExchange_snap : (beginExchange op a p e w s).snap = s.snap := rfl
@[simp] theorem beginExchange_hostEvents : (beginExchange op a p e w s).hostEvents = s.hostEvents := rfl

end

/-! `RejectWA` (R125). -/

section
variable (s : State)

@[simp] theorem rejectWa_params : (rejectWa s).params = s.params := rfl
@[simp] theorem rejectWa_crc : (rejectWa s).crc = s.crc := rfl
@[simp] theorem rejectWa_txbuf : (rejectWa s).txbuf = txImage [] := rfl
@[simp] theorem rejectWa_txlen : (rejectWa s).txlen = 0 := rfl
@[simp] theorem rejectWa_rxbuf : (rejectWa s).rxbuf = s.rxbuf := rfl
@[simp] theorem rejectWa_rxlen : (rejectWa s).rxlen = 0 := rfl
@[simp] theorem rejectWa_ctx : (rejectWa s).ctx = Context.empty := rfl
@[simp] theorem rejectWa_verdict : (rejectWa s).verdict = Verdict.empty := rfl
@[simp] theorem rejectWa_status : (rejectWa s).status =
    { s.status with
      nodata := false, crcok := false, fcok := false, addrok := false, accept := false, vdone := false,
      addrValid := false, rxDrop := false, errArg := true, cause := .invalidArgument } := rfl
@[simp] theorem rejectWa_addrResult : (rejectWa s).addrResult = 0 := rfl
@[simp] theorem rejectWa_snap : (rejectWa s).snap = s.snap := rfl
@[simp] theorem rejectWa_hostEvents : (rejectWa s).hostEvents = s.hostEvents := rfl

end

/-! `SnapWrite` (R183). -/

section
variable (d : Decoded) (s : State)

@[simp] theorem snapWrite_params : (snapWrite d s).params = s.params := rfl
@[simp] theorem snapWrite_crc : (snapWrite d s).crc = s.crc := rfl
@[simp] theorem snapWrite_txbuf : (snapWrite d s).txbuf = s.txbuf := rfl
@[simp] theorem snapWrite_txlen : (snapWrite d s).txlen = s.txlen := rfl
@[simp] theorem snapWrite_rxbuf : (snapWrite d s).rxbuf = s.rxbuf := rfl
@[simp] theorem snapWrite_rxlen : (snapWrite d s).rxlen = s.rxlen := rfl
@[simp] theorem snapWrite_ctx : (snapWrite d s).ctx = s.ctx := rfl
@[simp] theorem snapWrite_verdict : (snapWrite d s).verdict = s.verdict := rfl
@[simp] theorem snapWrite_status : (snapWrite d s).status = { s.status with alarm := d.alarm } := rfl
@[simp] theorem snapWrite_addrResult : (snapWrite d s).addrResult = s.addrResult := rfl
@[simp] theorem snapWrite_snap : (snapWrite d s).snap = d.fields := rfl
@[simp] theorem snapWrite_hostEvents : (snapWrite d s).hostEvents = s.hostEvents := rfl

end

/-! The verdict VALIDATE records (R152). -/

section
variable (sp : SplitResult) (s : State)

@[simp] theorem recordVerdict_params : (recordVerdict sp s).params = s.params := rfl
@[simp] theorem recordVerdict_crc : (recordVerdict sp s).crc = s.crc := rfl
@[simp] theorem recordVerdict_txbuf : (recordVerdict sp s).txbuf = s.txbuf := rfl
@[simp] theorem recordVerdict_txlen : (recordVerdict sp s).txlen = s.txlen := rfl
@[simp] theorem recordVerdict_rxbuf : (recordVerdict sp s).rxbuf = s.rxbuf := rfl
@[simp] theorem recordVerdict_rxlen : (recordVerdict sp s).rxlen = s.rxlen := rfl
@[simp] theorem recordVerdict_ctx : (recordVerdict sp s).ctx = s.ctx := rfl
@[simp] theorem recordVerdict_verdict : (recordVerdict sp s).verdict =
    ⟨sp.addr, sp.fc, sp.rxCrc, sp.calcCrc, BitVec.ofNat 16 sp.plen⟩ := rfl
@[simp] theorem recordVerdict_status : (recordVerdict sp s).status =
    { s.status with
      vdone := true, nodata := sp.nodata, crcok := sp.crcok, fcok := fcEcho s sp, addrok := addrEcho s sp,
      accept := accepts s sp,
      cause := causeOf s.params.strictCrcRead s.ctx.op sp.nodata sp.crcok (fcEcho s sp) (addrEcho s sp) sp.plen } := rfl
@[simp] theorem recordVerdict_addrResult : (recordVerdict sp s).addrResult = s.addrResult := rfl
@[simp] theorem recordVerdict_snap : (recordVerdict sp s).snap = s.snap := rfl
@[simp] theorem recordVerdict_hostEvents : (recordVerdict sp s).hostEvents = s.hostEvents := rfl

end

/-! Reset (R34); the parameters and the host's commands stay. -/

section
variable (s : State)

@[simp] theorem resetState_params : (resetState s).params = s.params := rfl
@[simp] theorem resetState_crc : (resetState s).crc = 0xFFFF#16 := rfl
@[simp] theorem resetState_txbuf : (resetState s).txbuf = #v[0, 0, 0, 0, 0, 0, 0, 0] := rfl
@[simp] theorem resetState_txlen : (resetState s).txlen = 0 := rfl
@[simp] theorem resetState_rxbuf : (resetState s).rxbuf = [] := rfl
@[simp] theorem resetState_rxlen : (resetState s).rxlen = 0 := rfl
@[simp] theorem resetState_ctx : (resetState s).ctx = Context.empty := rfl
@[simp] theorem resetState_verdict : (resetState s).verdict = Verdict.empty := rfl
@[simp] theorem resetState_status : (resetState s).status = Status.empty := rfl
@[simp] theorem resetState_addrResult : (resetState s).addrResult = 0 := rfl
@[simp] theorem resetState_snap : (resetState s).snap = Snapshot.empty := rfl
@[simp] theorem resetState_hostEvents : (resetState s).hostEvents = s.hostEvents := rfl

end

/-! The host issues `w` next. -/

section
variable (w : Command) (s : State)

@[simp] theorem issueNext_params : (issueNext w s).params = s.params := rfl
@[simp] theorem issueNext_crc : (issueNext w s).crc = s.crc := rfl
@[simp] theorem issueNext_txbuf : (issueNext w s).txbuf = s.txbuf := rfl
@[simp] theorem issueNext_txlen : (issueNext w s).txlen = s.txlen := rfl
@[simp] theorem issueNext_rxbuf : (issueNext w s).rxbuf = s.rxbuf := rfl
@[simp] theorem issueNext_rxlen : (issueNext w s).rxlen = s.rxlen := rfl
@[simp] theorem issueNext_ctx : (issueNext w s).ctx = s.ctx := rfl
@[simp] theorem issueNext_verdict : (issueNext w s).verdict = s.verdict := rfl
@[simp] theorem issueNext_status : (issueNext w s).status = s.status := rfl
@[simp] theorem issueNext_addrResult : (issueNext w s).addrResult = s.addrResult := rfl
@[simp] theorem issueNext_snap : (issueNext w s).snap = s.snap := rfl
@[simp] theorem issueNext_hostEvents : (issueNext w s).hostEvents = .command w :: s.hostEvents := rfl

end

end Sys2Proof.Machine
end

