-- ==== Sys2Proof/Laws/Frame.lean ====
section
/-! SUPPORT. What the shared frame operations do: byte composition, the transmit image, the two build effects, the
split of a response, and the decode buffer. -/

namespace Sys2Proof.Machine

/-- `be16` as a number (R11). -/
theorem be16_toNat (a b : Byte) : (be16 a b).toNat = 256 * a.toNat + b.toNat := by
  have ha := a.isLt
  have hb := b.isLt
  have hd : (a.setWidth 16 <<< 8) &&& b.setWidth 16 = 0#16 := by
    apply BitVec.eq_of_getLsbD_eq
    intro i hi
    by_cases h : i < 8
    · simp [-BitVec.getLsbD_eq_getElem, hi, h]
    · have := BitVec.getLsbD_of_ge b i (by omega)
      simp [-BitVec.getLsbD_eq_getElem, hi, this]
  rw [be16, ← BitVec.add_eq_or_of_and_eq_zero _ _ hd]
  simp [BitVec.toNat_add, Nat.shiftLeft_eq]
  omega

/-- Byte `i` of the transmit image is byte `i` of the frame, 0x00 after its end (R121). -/
theorem txImage_get (f : List Byte) (i : Fin 8) : (txImage f)[i] = byteAt f i.val := by
  match i with
  | 0 => rfl
  | 1 => rfl
  | 2 => rfl
  | 3 => rfl
  | 4 => rfl
  | 5 => rfl
  | 6 => rfl
  | 7 => rfl

/-- The 18 bits of EXP_LEN hold `2·C + 5` exactly (R122). -/
theorem expectedRd_toNat (c : Half) : (expectedRd c).toNat = 2 * c.toNat + 5 := by
  have := c.isLt
  simp [expectedRd, BitVec.toNat_add, BitVec.toNat_mul]
  omega

/-- Beginning an exchange has the effect R121 lists. -/
theorem beginExchange_effect (s : State) (op : CtxOp) (a : Byte) (pre : List Byte) (explen : BitVec 18)
    (start : Half) (h : pre.length + 2 < 16) :
    BeginEffect s (beginExchange op a pre explen start s) op a (functionCode op) pre explen.toNat start := by
  refine ⟨txImage_get _, ?_, rfl, rfl, rfl, rfl, rfl, rfl, rfl,
    ⟨rfl, rfl, rfl, rfl, rfl, rfl, rfl, rfl, rfl, rfl, rfl⟩,
    ⟨rfl, fun _ => rfl, rfl, rfl, rfl, rfl, rfl, rfl⟩⟩
  simp [BitVec.toNat_ofNat]
  omega

/-- Rejecting a BUILD_WA has the effect R125 lists. -/
theorem rejectWa_effect (s : State) : RejectEffect s (rejectWa s) :=
  ⟨fun i => (txImage_get [] i).trans (by simp [byteAt]), rfl, rfl, rfl, rfl,
    ⟨rfl, rfl, rfl, rfl, rfl, rfl, rfl, rfl, rfl, rfl, rfl⟩,
    ⟨rfl, fun _ => rfl, rfl, rfl, rfl, rfl, rfl, rfl⟩⟩

/-- The split of a response too short to hold anything (R153). -/
theorem splitFrame_short {r : List Byte} (h : r.length < 4) :
    splitFrame r = ⟨true, 0, 0, 0, 0, 0, false⟩ := by simp [splitFrame, minResponse, h]

/-- The split of a response of at least four bytes (R153). -/
theorem splitFrame_long {r : List Byte} (h : 4 ≤ r.length) :
    splitFrame r =
      ⟨false, byteAt r 0, byteAt r 1, r.length - 5,
        be16 (byteAt r (r.length - 1)) (byteAt r (r.length - 2)), crc16 (r.take (r.length - 2)),
        crc16 (r.take (r.length - 2)) == be16 (byteAt r (r.length - 1)) (byteAt r (r.length - 2))⟩ := by
  simp [splitFrame, minResponse, Nat.not_lt.2 h, bytesFrom]

@[simp] theorem splitFrame_plen (r : List Byte) : (splitFrame r).plen = r.length - 5 := by
  by_cases h : r.length < 4
  · rw [splitFrame_short h]
    show 0 = r.length - 5
    omega
  · rw [splitFrame_long (by omega)]

@[simp] theorem splitFrame_nodata (r : List Byte) : (splitFrame r).nodata = decide (r.length < 4) := by
  by_cases h : r.length < 4
  · simp [splitFrame_short h, h]
  · simp [splitFrame_long (Nat.not_lt.1 h), h]

/-- The decode buffer has 20 bytes (R180). -/
@[simp] theorem fill_length (p : List Byte) (s : Half) : (fill p s).length = 20 := by
  simp [fill, regBlockBytes]

end Sys2Proof.Machine
end

