-- ==== Sys2Proof/Laws/Exec.lean ====
section
/-! SUPPORT. What each shared operation and each step can do, said once. -/

namespace Sys2Proof.Machine

/-- A command that reads the receive buffer completes exactly when the buffer can be read. -/
theorem withRxBytes_next_iff (s : State) (k : List Byte → State) (t : State) :
    withRxBytes s k = .next t ↔ ∃ r, rxBytes s = .ok r ∧ k r = t := by
  unfold withRxBytes
  cases rxBytes s <;> simp

theorem withRxBytes_ok {s : State} {r : List Byte} (h : rxBytes s = .ok r) (k : List Byte → State) :
    withRxBytes s k = .next (k r) := by
  simp [withRxBytes, h]

theorem pushLimit_le (s : State) : pushLimit s ≤ s.params.rxCap := by
  unfold pushLimit; split
  · exact Nat.le_refl _
  · exact Nat.min_le_right _ _

/-- RX_PUSH appends below the push limit and drops at it; it never faults. -/
theorem execRxPush_cases (b : Byte) (s : State) :
    (s.rxlen < pushLimit s ∧
      execRxPush b s = .next { s with rxbuf := memInsert s.rxbuf s.rxlen b, rxlen := s.rxlen + 1 }) ∨
    (pushLimit s ≤ s.rxlen ∧
      execRxPush b s = .next { s with status := { s.status with rxDrop := true } }) := by
  by_cases h : s.rxlen < pushLimit s
  · refine .inl ⟨h, ?_⟩
    simp [execRxPush, h, memWrite_ok _ _ (Nat.lt_of_lt_of_le h (pushLimit_le s))]
  · exact .inr ⟨Nat.le_of_not_lt h, by simp [execRxPush, h]⟩

/-- BUILD_WA begins an exchange or is rejected. -/
theorem execBuildWa_cases (a : Byte) (n : Half) (s : State) :
    (validNewAddr n a = true ∧
      execBuildWa a n s = .next (beginExchange .wa a (prefixWa a n) expectedWa 0 s)) ∨
    (validNewAddr n a = false ∧ execBuildWa a n s = .next (rejectWa s)) := by
  cases h : validNewAddr n a <;> simp [execBuildWa, h]

/-- The address-result action writes ADDR_RESULT and ADDR_VALID and nothing else (R157). -/
theorem addrResultWrite_eq (acc : Bool) (plen : Nat) (r : List Byte) (s : State) :
    addrResultWrite acc plen r s =
      { s with
        addrResult := if acc ∧ 2 ≤ plen then be16 (byteAt r 3) (byteAt r 4) else 0
        status := { s.status with addrValid := decide (acc ∧ 2 ≤ plen) } } := by
  unfold addrResultWrite; split <;> rename_i h <;> simp [h]

/-- VALIDATE records the verdict and then performs at most one completion action (R152). -/
theorem validateResponse_cases (r : List Byte) (s : State) :
    (s.ctx.op = .ra ∧ validateResponse r s =
      addrResultWrite (accepts s (splitFrame r)) (splitFrame r).plen r (recordVerdict (splitFrame r) s)) ∨
    (s.ctx.op = .rd ∧ accepts s (splitFrame r) = true ∧ validateResponse r s =
      snapWrite (decodePayload (bytesFrom r 3 (3 + (splitFrame r).plen)) s.ctx.winStart)
        (recordVerdict (splitFrame r) s)) ∨
    (s.ctx.op ≠ .ra ∧ (s.ctx.op = .rd → accepts s (splitFrame r) = false) ∧
      validateResponse r s = recordVerdict (splitFrame r) s) := by
  cases hop : s.ctx.op with
  | rd => cases hacc : accepts s (splitFrame r) <;> simp [validateResponse, hop, hacc]
  | none => simp [validateResponse, hop]
  | wa => simp [validateResponse, hop]
  | ra => simp [validateResponse, hop]
  | re => simp [validateResponse, hop]

section
variable (r : List Byte) (s : State)

@[simp] theorem validateResponse_params : (validateResponse r s).params = s.params := by
  rcases validateResponse_cases r s with ⟨-, h⟩ | ⟨-, -, h⟩ | ⟨-, -, h⟩ <;> simp [h, addrResultWrite_eq]

@[simp] theorem validateResponse_crc : (validateResponse r s).crc = s.crc := by
  rcases validateResponse_cases r s with ⟨-, h⟩ | ⟨-, -, h⟩ | ⟨-, -, h⟩ <;> simp [h, addrResultWrite_eq]

@[simp] theorem validateResponse_txbuf : (validateResponse r s).txbuf = s.txbuf := by
  rcases validateResponse_cases r s with ⟨-, h⟩ | ⟨-, -, h⟩ | ⟨-, -, h⟩ <;> simp [h, addrResultWrite_eq]

@[simp] theorem validateResponse_txlen : (validateResponse r s).txlen = s.txlen := by
  rcases validateResponse_cases r s with ⟨-, h⟩ | ⟨-, -, h⟩ | ⟨-, -, h⟩ <;> simp [h, addrResultWrite_eq]

@[simp] theorem validateResponse_rxbuf : (validateResponse r s).rxbuf = s.rxbuf := by
  rcases validateResponse_cases r s with ⟨-, h⟩ | ⟨-, -, h⟩ | ⟨-, -, h⟩ <;> simp [h, addrResultWrite_eq]

@[simp] theorem validateResponse_rxlen : (validateResponse r s).rxlen = s.rxlen := by
  rcases validateResponse_cases r s with ⟨-, h⟩ | ⟨-, -, h⟩ | ⟨-, -, h⟩ <;> simp [h, addrResultWrite_eq]

@[simp] theorem validateResponse_ctx : (validateResponse r s).ctx = s.ctx := by
  rcases validateResponse_cases r s with ⟨-, h⟩ | ⟨-, -, h⟩ | ⟨-, -, h⟩ <;> simp [h, addrResultWrite_eq]

@[simp] theorem validateResponse_hostEvents : (validateResponse r s).hostEvents = s.hostEvents := by
  rcases validateResponse_cases r s with ⟨-, h⟩ | ⟨-, -, h⟩ | ⟨-, -, h⟩ <;> simp [h, addrResultWrite_eq]

@[simp] theorem validateResponse_verdict : (validateResponse r s).verdict =
    ⟨(splitFrame r).addr, (splitFrame r).fc, (splitFrame r).rxCrc, (splitFrame r).calcCrc,
      BitVec.ofNat 16 (splitFrame r).plen⟩ := by
  rcases validateResponse_cases r s with ⟨-, h⟩ | ⟨-, -, h⟩ | ⟨-, -, h⟩ <;> simp [h, addrResultWrite_eq]

end

/-- VALIDATE completes wherever `RXBUF[0..RXLEN)` can be read. -/
theorem exec_validate {s : State} {r : List Byte} (h : rxBytes s = .ok r) :
    exec .validate s = .next (validateResponse r s) := withRxBytes_ok h _

/-- DECODE completes wherever `RXBUF[0..RXLEN)` can be read. -/
theorem exec_decode {s : State} {r : List Byte} (h : rxBytes s = .ok r) (start : Half) :
    exec (.decode start) s = .next (snapWrite (decodePayload r start) s) := withRxBytes_ok h _

/-- The flags VALIDATE writes and keeps, whatever the completion action; ADDR_VALID and ALARM are the action's. -/
theorem validateResponse_status (r : List Byte) (s : State) :
    (validateResponse r s).status =
      { (recordVerdict (splitFrame r) s).status with
        addrValid := (validateResponse r s).status.addrValid
        alarm := (validateResponse r s).status.alarm } := by
  rcases validateResponse_cases r s with ⟨-, h⟩ | ⟨-, -, h⟩ | ⟨-, -, h⟩ <;> simp [h, addrResultWrite_eq]

/-- Reading one byte after a byte was pushed. -/
theorem rxByte_push {s : State} (h : s.rxlen < s.params.rxCap) (b : Byte) (a : Nat) :
    rxByte { s with rxbuf := memInsert s.rxbuf s.rxlen b, rxlen := s.rxlen + 1 } a =
      if a = s.rxlen then .ok b else rxByte s a := by
  simp [rxByte, memRead_memInsert, h]

/-- Reading `RXBUF[0..RXLEN)` after a byte was pushed. -/
theorem rxBytes_push {s : State} {r : List Byte} (h : s.rxlen < s.params.rxCap) (b : Byte)
    (hr : rxBytes s = .ok r) :
    rxBytes { s with rxbuf := memInsert s.rxbuf s.rxlen b, rxlen := s.rxlen + 1 } = .ok (r ++ [b]) := by
  rw [rxBytes_ok_iff] at hr ⊢
  obtain ⟨hl, hb⟩ := hr
  refine ⟨by simp [hl], fun j hj => ?_⟩
  rw [rxByte_push h]
  have hj' : j < r.length + 1 := by simpa using hj
  by_cases hjl : j = s.rxlen
  · subst hjl; simp [← hl]
  · rw [if_neg hjl, hb j (by omega), List.getElem_append_left (by omega)]

/-- Under RA, VALIDATE writes the address result and ADDR_VALID (R157). -/
theorem validateResponse_of_ra (r : List Byte) {s : State} (h : s.ctx.op = .ra) :
    (validateResponse r s).status.addrValid =
      (accepts s (splitFrame r) && decide (2 ≤ (splitFrame r).plen)) ∧
    (validateResponse r s).addrResult =
      if (validateResponse r s).status.addrValid then be16 (byteAt r 3) (byteAt r 4) else 0 := by
  rcases validateResponse_cases r s with ⟨-, e⟩ | ⟨h', -, -⟩ | ⟨h', -, -⟩
  · rw [e]; simp [addrResultWrite_eq]
  · simp [h] at h'
  · exact absurd h h'

/-- Under any other context, VALIDATE leaves the address result and ADDR_VALID. -/
theorem validateResponse_of_not_ra (r : List Byte) {s : State} (h : s.ctx.op ≠ .ra) :
    (validateResponse r s).status.addrValid = s.status.addrValid ∧
    (validateResponse r s).addrResult = s.addrResult := by
  rcases validateResponse_cases r s with ⟨h', -⟩ | ⟨-, -, e⟩ | ⟨-, -, e⟩
  · exact absurd h' h
  · rw [e]; simp
  · rw [e]; simp

/-- Accepted under RD, VALIDATE writes the decoded payload into the snapshot and ALARM (R158). -/
theorem validateResponse_of_read (r : List Byte) {s : State}
    (h : s.ctx.op = .rd ∧ accepts s (splitFrame r) = true) :
    (validateResponse r s).snap =
      (decodePayload (bytesFrom r 3 (3 + (splitFrame r).plen)) s.ctx.winStart).fields ∧
    (validateResponse r s).status.alarm =
      (decodePayload (bytesFrom r 3 (3 + (splitFrame r).plen)) s.ctx.winStart).alarm := by
  rcases validateResponse_cases r s with ⟨h', -⟩ | ⟨-, -, e⟩ | ⟨-, h', -⟩
  · simp [h.1] at h'
  · rw [e]; simp
  · simp [h' h.1] at h

/-- Otherwise VALIDATE leaves the snapshot and ALARM. -/
theorem validateResponse_of_not_read (r : List Byte) {s : State}
    (h : ¬(s.ctx.op = .rd ∧ accepts s (splitFrame r) = true)) :
    (validateResponse r s).snap = s.snap ∧ (validateResponse r s).status.alarm = s.status.alarm := by
  rcases validateResponse_cases r s with ⟨-, e⟩ | ⟨h1, h2, -⟩ | ⟨-, -, e⟩
  · rw [e]; simp [addrResultWrite_eq]
  · exact absurd ⟨h1, h2⟩ h
  · rw [e]; simp

/-- VALIDATE leaves what it reads. -/
@[simp] theorem rxBytes_validateResponse (r : List Byte) (s : State) :
    rxBytes (validateResponse r s) = rxBytes s :=
  rxBytes_congr (by simp) fun i _ => by simp [rxByte]

/-- What each command can do: the state it answers, with the form of the command that answers it. -/
theorem exec_next_cases {i : Instr} {s t : State} (h : exec i s = .next t) :
    (i = .nop ∧ t = s) ∨
    (i = .crcInit ∧ t = { s with crc := crcInitial }) ∨
    (∃ b, i = .crcByte b ∧ t = { s with crc := crc16Step s.crc b }) ∨
    (∃ op a pre explen start, isBuild i = true ∧ acceptedPrefix i = some pre ∧
      t = beginExchange op a pre explen start s) ∨
    (isBuild i = true ∧ acceptedPrefix i = none ∧ t = rejectWa s) ∨
    (i = .rxClear ∧ t = { s with rxlen := 0, status := { s.status with rxDrop := false } }) ∨
    (∃ b, i = .rxPush b ∧ s.rxlen < pushLimit s ∧
      t = { s with rxbuf := memInsert s.rxbuf s.rxlen b, rxlen := s.rxlen + 1 }) ∨
    (∃ b, i = .rxPush b ∧ pushLimit s ≤ s.rxlen ∧
      t = { s with status := { s.status with rxDrop := true } }) ∨
    (∃ r, i = .validate ∧ rxBytes s = .ok r ∧ t = validateResponse r s) ∨
    (∃ r start, i = .decode start ∧ rxBytes s = .ok r ∧ t = snapWrite (decodePayload r start) s) ∨
    (i = .srst ∧ t = resetState s) := by
  cases i with
  | nop => cases h; simp
  | crcInit => cases h; simp
  | crcByte b => cases h; simp
  | buildRa a => cases h; exact .inr (.inr (.inr (.inl ⟨_, _, _, _, _, rfl, rfl, rfl⟩)))
  | buildRd a start count => cases h; exact .inr (.inr (.inr (.inl ⟨_, _, _, _, _, rfl, rfl, rfl⟩)))
  | buildRe a => cases h; exact .inr (.inr (.inr (.inl ⟨_, _, _, _, _, rfl, rfl, rfl⟩)))
  | buildWa a n =>
    rcases execBuildWa_cases a n s with ⟨hv, he⟩ | ⟨hv, he⟩ <;> simp only [exec, he] at h <;> cases h
    · exact .inr (.inr (.inr (.inl ⟨_, _, _, _, _, rfl, if_pos hv, rfl⟩)))
    · exact .inr (.inr (.inr (.inr (.inl ⟨rfl, by simp [acceptedPrefix, hv], rfl⟩))))
  | rxClear => cases h; simp
  | rxPush b =>
    rcases execRxPush_cases b s with ⟨hv, he⟩ | ⟨hv, he⟩ <;> simp only [exec, he] at h <;> cases h
    · exact .inr (.inr (.inr (.inr (.inr (.inr (.inl ⟨b, rfl, hv, rfl⟩))))))
    · exact .inr (.inr (.inr (.inr (.inr (.inr (.inr (.inl ⟨b, rfl, hv, rfl⟩)))))))
  | validate => obtain ⟨r, hr, rfl⟩ := (withRxBytes_next_iff _ _ _).1 h; simp [hr]
  | decode start => obtain ⟨r, hr, rfl⟩ := (withRxBytes_next_iff _ _ _).1 h; simp [hr]
  | srst => cases h; simp

/-- A sequence of commands runs its parts one after the other. -/
theorem execSeq_append (is js : List Instr) (s : State) :
    execSeq (is ++ js) s = match execSeq is s with
      | .next t => execSeq js t
      | .fault f => .fault f
      | .refused r => .refused r := by
  induction is generalizing s with
  | nil => rfl
  | cons i is ih => simp only [List.cons_append, execSeq]; cases exec i s <;> simp [ih]

/-- What a step can do: nothing where the host does nothing, else the command's meaning, the effect of an illegal
command, or a reset, each on the state with the event taken off the host's list. -/
theorem step_cases (s : State) :
    (s.hostEvents = [] ∧ step s = .next s) ∨
    (∃ w es i, s.hostEvents = .command w :: es ∧ decode w = .ok i ∧
      step s = exec i { s with hostEvents := es }) ∨
    (∃ w es e, s.hostEvents = .command w :: es ∧ decode w = .error e ∧
      step s = execIllegal { s with hostEvents := es }) ∨
    (∃ es, s.hostEvents = .reset :: es ∧ step s = .next (hardwareReset { s with hostEvents := es })) := by
  cases h : s.hostEvents with
  | nil => exact .inl ⟨rfl, by simp [step, takeEvent, h]⟩
  | cons e es =>
    cases e with
    | reset => exact .inr (.inr (.inr ⟨es, rfl, by simp [step, takeEvent, runEvent, h]⟩))
    | command w =>
      cases hd : decode w with
      | ok i => exact .inr (.inl ⟨w, es, i, rfl, hd, by simp [step, takeEvent, runEvent, runWord, h, hd]⟩)
      | error e =>
        exact .inr (.inr (.inl ⟨w, es, e, rfl, hd, by simp [step, takeEvent, runEvent, runWord, h, hd]⟩))

/-- A sequence of pushes appends its bytes up to the push limit, flags what it drops, and changes nothing else. -/
theorem execSeq_rxPush (bs : List Byte) {s : State} {r : List Byte} (hr : rxBytes s = .ok r)
    (hl : s.rxlen ≤ pushLimit s) :
    ∃ t, execSeq (bs.map .rxPush) s = .next t ∧ rxBytes t = .ok ((r ++ bs).take (pushLimit s)) ∧
      t.rxlen = min (s.rxlen + bs.length) (pushLimit s) ∧
      t.status.rxDrop = (s.status.rxDrop || decide (pushLimit s < s.rxlen + bs.length)) ∧
      { t with
        rxbuf := s.rxbuf
        rxlen := s.rxlen
        status := { t.status with rxDrop := s.status.rxDrop } } = s := by
  induction bs generalizing s r with
  | nil =>
    have := rxBytes_length hr
    refine ⟨s, rfl, ?_, by simp [hl], by simp [hl], rfl⟩
    rw [hr, List.append_nil, List.take_of_length_le (by omega)]
  | cons b bs ih =>
    have hlen := rxBytes_length hr
    have hcap := pushLimit_le s
    simp only [List.map, execSeq, exec]
    rcases execRxPush_cases b s with ⟨hlt, he⟩ | ⟨hge, he⟩ <;> rw [he]
    · obtain ⟨t, h1, h2, h3, h4, h5⟩ :=
        ih (rxBytes_push (by omega) b hr) (show s.rxlen + 1 ≤ pushLimit s by omega)
      change rxBytes t = .ok ((r ++ [b] ++ bs).take (pushLimit s)) at h2
      change t.rxlen = min (s.rxlen + 1 + bs.length) (pushLimit s) at h3
      change t.status.rxDrop = (s.status.rxDrop || decide (pushLimit s < s.rxlen + 1 + bs.length)) at h4
      refine ⟨t, h1, by simpa using h2, ?_, ?_, ?_⟩
      · rw [h3, List.length_cons, Nat.add_assoc, Nat.add_comm 1]
      · rw [h4, List.length_cons, Nat.add_assoc, Nat.add_comm 1]
      · exact congrArg (fun u : State => { u with rxbuf := s.rxbuf, rxlen := s.rxlen }) h5
    · obtain ⟨t, h1, h2, h3, h4, h5⟩ :=
        ih (s := { s with status := { s.status with rxDrop := true } }) hr hl
      change rxBytes t = .ok ((r ++ bs).take (pushLimit s)) at h2
      change t.rxlen = min (s.rxlen + bs.length) (pushLimit s) at h3
      refine ⟨t, h1, ?_, ?_, ?_, ?_⟩
      · rw [h2, List.take_append_of_le_length (by omega), List.take_append_of_le_length (by omega)]
      · rw [h3, List.length_cons]; omega
      · rw [h4, List.length_cons]; simp; omega
      · exact congrArg
          (fun u : State => { u with status := { u.status with rxDrop := s.status.rxDrop } }) h5

end Sys2Proof.Machine
end

