-- ==== Sys2Proof/Laws/PerInstr.lean ====
section
/-! SUPPORT. The family Encoding, one lemma per constructor of `Instr`: the word of every command carries its opcode
(30_encoding.md R72) and is well formed (R73). -/

namespace Sys2Proof.Laws.Encoding

/-- The encoder writes the command's opcode and leaves every reserved bit zero. -/
def Statement (i : Instr) : Prop :=
  fieldOpc (encode i) = opcodeOf i ∧ wellFormedWord i (encode i) = true

theorem nop : Statement .nop := by unfold Statement; decide
theorem crcInit : Statement .crcInit := by unfold Statement; decide
theorem rxClear : Statement .rxClear := by unfold Statement; decide
theorem validate : Statement .validate := by unfold Statement; decide
theorem srst : Statement .srst := by unfold Statement; decide

/-- The reserved bits of an assembled word are zero when each is zero in the field that holds it. -/
theorem wellFormed_of_bits {i : Instr} {o a : Byte} {h l : Half}
    (hb : ∀ k : Fin 48, (reservedMask i).getLsbD k = true → (assemble o a h l).getLsbD k = false) :
    wellFormedWord i (assemble o a h l) = true := by
  have : assemble o a h l &&& reservedMask i = 0#48 := by
    apply BitVec.eq_of_getLsbD_eq
    intro k hk
    cases hm : (reservedMask i).getLsbD k with
    | false => simp [hm]
    | true => simp [hm, hb ⟨k, hk⟩ hm]
  simp [wellFormedWord, this]

theorem crcByte (b : Byte) : Statement (.crcByte b) := by
  refine ⟨by simp [encode, opcodeOf], wellFormed_of_bits ?_⟩
  intro k hk
  have h := (by decide : ∀ k : Fin 48, (~~~ (0xFF00000000FF : Command)).getLsbD k = true →
    k.val < 40 ∧ 8 ≤ k.val) k hk
  rw [assemble_getLsbD]
  simp [h.1, BitVec.getLsbD_of_ge b k h.2]

theorem rxPush (b : Byte) : Statement (.rxPush b) := by
  refine ⟨by simp [encode, opcodeOf], wellFormed_of_bits ?_⟩
  intro k hk
  have h := (by decide : ∀ k : Fin 48, (~~~ (0xFF00000000FF : Command)).getLsbD k = true →
    k.val < 40 ∧ 8 ≤ k.val) k hk
  rw [assemble_getLsbD]
  simp [h.1, BitVec.getLsbD_of_ge b k h.2]

theorem buildRa (a : Byte) : Statement (.buildRa a) := by
  refine ⟨by simp [encode, opcodeOf], wellFormed_of_bits ?_⟩
  intro k hk
  have h := (by decide : ∀ k : Fin 48, (~~~ (0xFFFF00000000 : Command)).getLsbD k = true →
    k.val < 32) k hk
  rw [assemble_getLsbD]
  simp [h, show k.val < 40 by omega]

theorem buildRe (a : Byte) : Statement (.buildRe a) := by
  refine ⟨by simp [encode, opcodeOf], wellFormed_of_bits ?_⟩
  intro k hk
  have h := (by decide : ∀ k : Fin 48, (~~~ (0xFFFF00000000 : Command)).getLsbD k = true →
    k.val < 32) k hk
  rw [assemble_getLsbD]
  simp [h, show k.val < 40 by omega]

theorem buildRd (a : Byte) (s c : Half) : Statement (.buildRd a s c) := by
  refine ⟨by simp [encode, opcodeOf], wellFormed_of_bits ?_⟩
  intro k hk
  exact ((by decide : ∀ k : Fin 48, ¬ (~~~ (0xFFFFFFFFFFFF : Command)).getLsbD k = true) k hk).elim

theorem buildWa (a : Byte) (n : Half) : Statement (.buildWa a n) := by
  refine ⟨by simp [encode, opcodeOf], wellFormed_of_bits ?_⟩
  intro k hk
  have h := (by decide : ∀ k : Fin 48, (~~~ (0xFFFF0000FFFF : Command)).getLsbD k = true →
    k.val < 32 ∧ 16 ≤ k.val) k hk
  rw [assemble_getLsbD]
  simp [h.1, show k.val < 40 by omega, BitVec.getLsbD_of_ge n k h.2]

theorem decode (s : Half) : Statement (.decode s) := by
  refine ⟨by simp [encode, opcodeOf], wellFormed_of_bits ?_⟩
  intro k hk
  have h := (by decide : ∀ k : Fin 48, (~~~ (0xFF000000FFFF : Command)).getLsbD k = true →
    k.val < 40 ∧ 16 ≤ k.val) k hk
  rw [assemble_getLsbD]
  simp [h.1, BitVec.getLsbD_of_ge s k h.2]

end Sys2Proof.Laws.Encoding
end

