-- ==== Sys2Proof/Tests/Slice0.lean ====
section
/-! SUPPORT. The model's own tests and the witnesses of its statements. Every expected value is the spec's: a vector
of 95_test_vectors.md or an example of the rule named. -/

namespace Sys2Proof.Tests

set_option Elab.async false

open Sys2Proof.Machine

/-! ## Helpers -/

/-- Whether an outcome is a next state with the property `p`. -/
def reaches (o : Result) (p : State → Bool) : Bool :=
  match o with
  | .next t => p t
  | .fault _ => false
  | .refused _ => false

/-- `s` with the response `r` in the receive buffer. -/
def received (r : List Byte) (s : State) : State :=
  { s with rxbuf := (List.range r.length).zip r, rxlen := r.length }

/-- The reset state with the context of BUILD_RD 0xF8, 0, 10 (vector B1). -/
def afterRd : State := { State.reset with ctx := ⟨.rd, 0xF8, 0x04, 25, 0⟩ }

/-- The reset state with the context of BUILD_RA 0xF8 (vector B14). -/
def afterRa : State := { State.reset with ctx := ⟨.ra, 0xF8, 0x03, 7, 0⟩ }

/-- The reset state with the context of BUILD_RE 0xF8 (vector B18). -/
def afterRe : State := { State.reset with ctx := ⟨.re, 0xF8, 0x42, 4, 0⟩ }

/-- RESP_FULL of 95_test_vectors.md §2.3. -/
def respFull : List Byte :=
  [0xF8, 0x04, 0x14, 0x08, 0xF5, 0x04, 0xD2, 0x00, 0x00, 0x0B, 0x04, 0x00, 0x00, 0xE2, 0x40, 0x00, 0x01,
   0x01, 0xF4, 0x00, 0x5F, 0x00, 0x00, 0xD7, 0x05]

/-- The response of vector V7. -/
def respAddr : List Byte := [0xF8, 0x03, 0x02, 0x00, 0x01, 0xE5, 0x90]

/-- The response of vector V6. -/
def respReset : List Byte := [0xF8, 0x42, 0xC2, 0x41]

/-! ## Well-formed words: each kind of reserved field refuses a one in it (R73) -/

theorem test_wellFormed_accepts : wellFormedWord .nop 0x000000000000 = true ∧
    wellFormedWord (.buildRd 0xF8 0 10) 0x04F80000000A = true := by decide

theorem test_illFormed_address : wellFormedWord .nop 0x000100000000 = false ∧
    wellFormedWord (.decode 7) 0x218000000007 = false := by decide

theorem test_illFormed_high : wellFormedWord (.buildWa 0xF8 1) 0x06F800010001 = false ∧
    wellFormedWord (.buildRa 0xF8) 0x03F880000000 = false := by decide

theorem test_illFormed_low : wellFormedWord (.buildRe 0xF8) 0x42F800000001 = false ∧
    wellFormedWord .validate 0x200000008000 = false := by decide

theorem test_illFormed_byte : wellFormedWord (.crcByte 1) 0x020000000101 = false ∧
    wellFormedWord (.rxPush 0xF8) 0x1100000080F8 = false := by decide

/-! ## Decoding: each constructor by the word the spec's encoding gives it (R71, R72, R75, 95_test_vectors.md) -/

theorem test_word_nop : decode 0x000000000000 = .ok .nop ∧ encode .nop = 0x000000000000 := by decide +kernel

theorem test_word_crcInit : decode 0x010000000000 = .ok .crcInit ∧
    encode .crcInit = 0x010000000000 := by decide +kernel

theorem test_word_crcByte : decode 0x020000000025 = .ok (.crcByte 0x25) ∧
    encode (.crcByte 0x25) = 0x020000000025 := by decide +kernel

theorem test_word_buildRa : decode 0x030500000000 = .ok (.buildRa 0x05) ∧
    encode (.buildRa 0x05) = 0x030500000000 := by decide +kernel

theorem test_word_buildRd : decode 0x04F800070001 = .ok (.buildRd 0xF8 7 1) ∧
    encode (.buildRd 0xF8 7 1) = 0x04F800070001 := by decide +kernel

theorem test_word_buildWa : decode 0x060500000100 = .ok (.buildWa 0x05 0x0100) ∧
    encode (.buildWa 0x05 0x0100) = 0x060500000100 := by decide +kernel

theorem test_word_rxClear : decode 0x100000000000 = .ok .rxClear ∧
    encode .rxClear = 0x100000000000 := by decide +kernel

theorem test_word_rxPush : decode 0x1100000000D7 = .ok (.rxPush 0xD7) ∧
    encode (.rxPush 0xD7) = 0x1100000000D7 := by decide +kernel

theorem test_word_validate : decode 0x200000000000 = .ok .validate ∧
    encode .validate = 0x200000000000 := by decide +kernel

theorem test_word_decode : decode 0x210000000008 = .ok (.decode 8) ∧
    encode (.decode 8) = 0x210000000008 := by decide +kernel

theorem test_word_buildRe : decode 0x420100000000 = .ok (.buildRe 0x01) ∧
    encode (.buildRe 0x01) = 0x420100000000 := by decide +kernel

theorem test_word_srst : decode 0xFF0000000000 = .ok .srst ∧
    encode .srst = 0xFF0000000000 := by decide +kernel

/-- Illegal opcodes (X3 to X7) and a word with reserved bits set (CR13). -/
theorem test_word_rejected : decode 0x050000000000 = .error (.illegalOpcode 0x05) ∧
    decode 0x220000000000 = .error (.illegalOpcode 0x22) ∧
    decode 0xFE0000000000 = .error (.illegalOpcode 0xFE) ∧
    decode 0x02FFFFFFFF01 = .ok (.crcByte 0x01) := by decide +kernel

/-! ## One step of each command -/

/-- X1: NOP through the step, from a state with the host's word in place. -/
theorem test_nop : reaches (step (State.reset.withFetchWord 48 0x000000000000)) (· == State.reset) = true := by
  decide +kernel

/-- CR10. -/
theorem test_crcInit : reaches (exec .crcInit { State.reset with crc := 0x1234 })
    (fun t => t.crc == 0xFFFF) = true := by decide +kernel

/-- CR11 and CR12. -/
theorem test_crcByte : reaches (exec (.crcByte 0x01) State.reset) (fun t => t.crc == 0x807E) = true ∧
    reaches (exec (.crcByte 0x00) State.reset) (fun t => t.crc == 0x40BF) = true := by decide +kernel

/-- B14: BUILD_RA 0xF8. -/
theorem test_buildRa : reaches (exec (.buildRa 0xF8) State.reset)
    (fun t => txFrame t == [0xF8, 0x03, 0x00, 0x02, 0x00, 0x01, 0x31, 0xA3] &&
      t.ctx == ⟨.ra, 0xF8, 0x03, 7, 0⟩ && statusWord t.status == 0x0000) = true := by decide +kernel

/-- B3: the start register goes to bytes 2 and 3 and to WIN_START, the count to bytes 4 and 5. -/
theorem test_buildRd : reaches (exec (.buildRd 0xF8 7 1) State.reset)
    (fun t => txFrame t == [0xF8, 0x04, 0x00, 0x07, 0x00, 0x01, 0x94, 0x62] &&
      t.ctx == ⟨.rd, 0xF8, 0x04, 7, 7⟩) = true := by decide +kernel

/-- B5: EXP_LEN is 131075, in 18 bits. -/
theorem test_buildRd_widest : reaches (exec (.buildRd 0xF8 0xFFFF 0xFFFF) State.reset)
    (fun t => txFrame t == [0xF8, 0x04, 0xFF, 0xFF, 0xFF, 0xFF, 0xE5, 0xF7] &&
      t.ctx.expLen.toNat == 131075 && readPort t 0x06 == 0x0003 && readPort t 0x07 == 0x0002) = true := by
  decide +kernel

/-- B12: the old address is the frame's and the context's. -/
theorem test_buildWa : reaches (exec (.buildWa 0x05 0xF7) State.reset)
    (fun t => txFrame t == [0x05, 0x06, 0x00, 0x02, 0x00, 0xF7, 0x68, 0x08] &&
      t.ctx == ⟨.wa, 0x05, 0x06, 8, 0⟩) = true := by decide +kernel

/-- B22: the 16-bit new address is checked whole. -/
theorem test_buildWa_rejected : reaches (exec (.buildWa 0x05 0x0100) State.reset)
    (fun t => txFrame t == [] && t.ctx == ⟨.none, 0, 0, 0, 0⟩ && statusWord t.status == 0x6100) = true := by
  decide +kernel

/-- V19. -/
theorem test_rxClear : reaches (exec .rxClear { received respFull afterRd with
      status := { Status.empty with rxDrop := true, vdone := true } })
    (fun t => t.rxlen == 0 && !t.status.rxDrop && t.status.vdone && t.ctx == afterRd.ctx) = true := by
  decide +kernel

/-- V11, the fifth byte: dropped, STATUS 0x0400, RXLEN 4. -/
theorem test_rxPush_dropped : reaches (exec (.rxPush 0x00) (received respReset afterRe))
    (fun t => t.rxlen == 4 && statusWord t.status == 0x0400) = true := by decide +kernel

/-- V11, the fourth byte: stored at index 3. -/
theorem test_rxPush : reaches (exec (.rxPush 0x41) (received [0xF8, 0x42, 0xC2] afterRe))
    (fun t => t.rxlen == 4 && t.rxbuf == [(0, 0xF8), (1, 0x42), (2, 0xC2), (3, 0x41)] &&
      statusWord t.status == 0x0000) = true := by decide +kernel

/-- V1 and V7: an accepted read and an accepted address query. -/
theorem test_validate_accepted :
    reaches (exec .validate (received respFull afterRd))
      (fun t => statusWord t.status == 0x003E && t.verdict == ⟨0xF8, 0x04, 0x05D7, 0x05D7, 20⟩ &&
        t.snap == ⟨2293, 1234, 2820, 123456, 500, 95, 0⟩) = true ∧
    reaches (exec .validate (received respAddr afterRa))
      (fun t => statusWord t.status == 0x007E && t.addrResult == 0x0001) = true := by decide +kernel

/-- V2 and V2s: a wrong CRC is advisory for a read, unless STRICT_CRC_READ. V8, V10, V5: a short address, no context,
no data. -/
theorem test_validate_causes :
    reaches (exec .validate (received (respFull.take 24 ++ [0x04]) afterRd))
      (fun t => statusWord t.status == 0x803C && t.snap.rawV == 2293) = true ∧
    reaches (exec .validate (received (respFull.take 24 ++ [0x04]) { afterRd with params := ⟨256, true⟩ }))
      (fun t => statusWord t.status == 0x202C && t.snap == Snapshot.empty) = true ∧
    reaches (exec .validate (received [0xF8, 0x03, 0x02, 0x00, 0xC0, 0x24] afterRa))
      (fun t => statusWord t.status == 0x903E && t.addrResult == 0) = true ∧
    reaches (exec .validate (received respReset State.reset)) (fun t => statusWord t.status == 0x5022) = true ∧
    reaches (exec .validate (received [0xF8, 0x04] afterRd)) (fun t => statusWord t.status == 0x1021) = true := by
  decide +kernel

/-- DC16, the last command. -/
theorem test_decode : reaches (exec (.decode 7) (received [0x08, 0xF5] State.reset))
    (fun t => t.snap == ⟨0, 0, 0, 0, 2293, 0, 0⟩ && statusWord t.status == 0x0000) = true := by decide +kernel

/-- DC17, the last command. -/
theorem test_decode_alarm : reaches (exec (.decode 8) (received [0x00, 0x5F, 0xFF, 0xFF] State.reset))
    (fun t => t.snap == ⟨0, 0, 0, 0, 0, 95, 0xFFFF⟩ && statusWord t.status == 0x0080) = true := by
  decide +kernel

/-- B18. -/
theorem test_buildRe : reaches (exec (.buildRe 0xF8) State.reset)
    (fun t => t.txbuf == #v[0xF8, 0x42, 0xC2, 0x41, 0, 0, 0, 0] && t.txlen == 4 &&
      t.ctx == ⟨.re, 0xF8, 0x42, 4, 0⟩) = true := by decide +kernel

/-- X2: the parameters of the instance survive. -/
theorem test_srst : reaches (exec .srst { received respFull afterRd with params := ⟨25, true⟩, crc := 0 })
    (fun t => t == { State.reset with params := ⟨25, true⟩ }) = true := by decide +kernel

/-- X3: an illegal command. -/
theorem test_illegal : reaches (step (issueNext 0x050000000000 State.reset))
    (fun t => statusWord t.status == 0x7200 && t.ctx == Context.empty) = true := by decide +kernel

/-! ## The pure functions and the port -/

/-- CR2, CR4, CR5, CR6 and CR8 (the residue). -/
theorem test_crc16 : crc16 [0x00] = 0x40BF ∧ crc16 [0xFF] = 0x00FF ∧ crc16 [0xA5] = 0x3B7F ∧
    crc16 [0x01, 0x03, 0x00, 0x02, 0x00, 0x01] = 0xCA25 ∧
    crc16 [0x01, 0x03, 0x00, 0x02, 0x00, 0x01, 0x25, 0xCA] = 0x0000 := by decide +kernel

/-- DC4, DC5, DC9, DC12 and DC14. -/
theorem test_decodePayload :
    (decodePayload [0xFF, 0xFF] 9).alarm = true ∧ (decodePayload [0xFF, 0xFE] 9).alarm = false ∧
    (decodePayload [0x08] 0).fields.rawV = 2048 ∧
    (decodePayload [1, 2, 3, 4, 5, 6, 7, 8, 9, 10, 11, 12, 13, 14, 15, 16, 17, 18, 19, 20, 21, 22] 0).fields =
      ⟨258, 84280068, 151652104, 219024140, 3856, 4370, 4884⟩ ∧
    (decodePayload (List.replicate 20 0xFF) 0).fields.rawE = 0xFFFFFFFF := by decide +kernel

/-- The register port after V7 (addresses of R27). -/
theorem test_readPort : reaches (exec .validate (received respAddr afterRa))
    (fun t => readPort t 0x00 == 0x007E && readPort t 0x04 == 0x0303 && readPort t 0x09 == 0x03F8 &&
      readPort t 0x0A == 0x90E5 && readPort t 0x0C == 2 && readPort t 0x0D == 1 &&
      readPort t 0x0E == 0) = true := by decide +kernel

/-! ## Witnesses: for each statement with hypotheses, data that meets all of them together -/

theorem witness_wellFormedWords :
    decode 0x020000000001 = .ok (.crcByte 1) ∧ wellFormedWord (.crcByte 1) 0x020000000001 = true ∧
    decode 0x020000000101 = .ok (.crcByte 1) ∧ wellFormedWord (.crcByte 1) 0x020000000101 = false := by
  decide +kernel

theorem witness_reservedBits : decode 0x1100000080F8 = .ok (.rxPush 0xF8) ∧
    reservedMask (.rxPush 0xF8) &&& 0x000000008000 = 0x000000008000#48 := by decide +kernel

theorem witness_decodes : ((0xFF0000000000 : Command) >>> 40).setWidth 8 = 0xFF#8 ∧
    ((0x000000000000 : Command) >>> 40).setWidth 8 = 0x00#8 ∧
    ((0x430000000000 : Command) >>> 40).setWidth 8 ∉ definedOpcodes := by decide +kernel

/-- The accepted builds, WA at both boundaries of its range. -/
theorem witness_acceptedPrefix :
    acceptedPrefix (.buildRa 0xF8) = some [0xF8, 0x03, 0x00, 0x02, 0x00, 0x01] ∧
    acceptedPrefix (.buildRd 0xF8 0 10) = some [0xF8, 0x04, 0x00, 0x00, 0x00, 0x0A] ∧
    acceptedPrefix (.buildWa 0xF8 0x01) = some [0xF8, 0x06, 0x00, 0x02, 0x00, 0x01] ∧
    acceptedPrefix (.buildWa 0x05 0xF7) = some [0x05, 0x06, 0x00, 0x02, 0x00, 0xF7] ∧
    acceptedPrefix (.buildRe 0xF8) = some [0xF8, 0x42] ∧ acceptedPrefix (.buildWa 0x05 0xF8) = none := by
  decide +kernel

theorem witness_stepRuns :
    (issueNext 0x420100000000 State.reset).hostEvents = .command 0x420100000000 :: [] ∧
    decode 0x420100000000 = .ok (.buildRe 0x01) ∧
    decodeTableWord 48 0x420100000000 = some (.buildRe 0x01) := by decide +kernel

theorem witness_idle : State.reset.hostEvents = [] := rfl

theorem witness_reset_event : ∃ s : State, s.hostEvents = .reset :: [] :=
  ⟨{ State.reset with hostEvents := [.reset] }, rfl⟩

/-- Each range of R202 at both ends, and the neighbours that are defined. -/
theorem witness_illegal :
    (∀ o ∈ [0x05, 0x07, 0x0F, 0x12, 0x1F, 0x22, 0x41, 0x43, 0xFE], illegalOpcode o) ∧
    (∀ o ∈ [0x04, 0x06, 0x10, 0x11, 0x20, 0x21, 0x42, 0xFF], ¬ illegalOpcode o) := by decide

theorem witness_illegal_then_validate : ∃ s : State, s.status.errIll = true ∧ rxBytes s = .ok respReset :=
  ⟨{ received respReset State.reset with status := { Status.empty with errIll := true } },
    by decide +kernel, by decide +kernel⟩

/-- ERR_ILL, ERR_ARG and RX_DROP all set, and a command that keeps them (SrstRestoresResetState, StickyFlagsLast,
CauseWriters). -/
theorem witness_sticky : ∃ s t : State, exec (.crcByte 1) s = .next t ∧ s.status.errIll = true ∧
    s.status.errArg = true ∧ s.status.rxDrop = true ∧ acceptedPrefix (.crcByte 1) = none ∧
    isBuild (.crcByte 1) = false :=
  ⟨{ State.reset with status := { Status.empty with errIll := true, errArg := true, rxDrop := true } }, _, rfl,
    rfl, rfl, rfl, rfl, rfl⟩

theorem witness_illegal_completes : ∃ t, execIllegal State.reset = .next t := ⟨_, rfl⟩

/-- The longest read below RX_CAP and the first above it. -/
theorem witness_buildRd_cut : State.reset.params.rxCap < 2 * (126#16).toNat + 5 ∧
    ¬ State.reset.params.rxCap < 2 * (125#16).toNat + 5 := by decide

/-- A VALIDATE that sets ADDR_VALID. -/
theorem witness_addrValid_set : (received respAddr afterRa).status.addrValid = false ∧
    reaches (exec .validate (received respAddr afterRa)) (fun t => t.status.addrValid) = true := by
  decide +kernel

/-- The clauses of ValidNewAddr at the values where they meet: 0x00, 0x01, 0xF7, 0xF8, the old address, and 0x0100. -/
theorem witness_validNewAddr :
    validNewAddr 0x01 0xF8 = true ∧ validNewAddr 0xF7 0x05 = true ∧ validNewAddr 0x00 0x05 = false ∧
    validNewAddr 0xF8 0x05 = false ∧ validNewAddr 0x05 0x05 = false ∧ validNewAddr 0x0100 0x00 = false := by
  decide +kernel

/-- A VALIDATE completes after a rejected build and a push. -/
theorem witness_rejected_then_validate : validNewAddr 0xF8 0x05 = false ∧
    ∃ t, execSeq ([(0x41 : Byte)].map .rxPush ++ [.validate]) (rejectWa State.reset) = .next t :=
  ⟨by decide +kernel, _, rfl⟩

/-- A frame pushed through an empty buffer whose limit it just fits, and prefixes of one and two bytes. -/
theorem witness_builtFrame : afterRe.rxlen = 0 ∧ [(0xF8 : Byte), 0x42].length + 2 = pushLimit afterRe ∧
    2 ≤ [(0xF8 : Byte), 0x42].length ∧ [(0xF8 : Byte)].length < 2 := by decide

/-- Two states that differ in the exchange before a build. -/
theorem witness_buildForgets :
    let s := afterRd
    let s' := { received respFull afterRd with rxbuf := [], addrResult := 5, rxlen := 0, ctx := afterRe.ctx }
    isBuild (.buildRe 1) = true ∧ s ≠ s' ∧ s.params = s'.params ∧ s.crc = s'.crc ∧ s.rxbuf = s'.rxbuf ∧
    s.snap = s'.snap ∧ s.status.alarm = s'.status.alarm ∧ s.status.errIll = s'.status.errIll ∧
    s.hostEvents = s'.hostEvents := by decide +kernel

/-- RX_PUSH one below the limit and at it, with a context and without. -/
theorem witness_rxPush :
    (received [0xF8, 0x42, 0xC2] afterRe).rxlen + 1 = pushLimit afterRe ∧
    (received respReset afterRe).rxlen = pushLimit afterRe ∧
    { State.reset with rxlen := 255 }.rxlen < pushLimit State.reset ∧
    pushLimit State.reset ≤ { State.reset with rxlen := 256 }.rxlen := by decide

/-- The parameters at both bounds. -/
theorem witness_paramsOk : ParamsOk ⟨25, true⟩ ∧ ParamsOk ⟨65535, false⟩ ∧ ParamsOk State.reset.params := by decide

/-- Received buffers of 3, 4, 5, 6 and 7 bytes that can be read (Split, VALIDATE, the echo check, the address result,
the validator's properties), under RA and under RD. -/
theorem witness_rxBytes :
    rxBytes (received [0xF8, 0x03, 0x02] afterRa) = .ok [0xF8, 0x03, 0x02] ∧
    rxBytes (received respReset afterRa) = .ok respReset ∧
    rxBytes (received [0xF8, 0x03, 0x02, 0x10, 0x20] afterRa) = .ok [0xF8, 0x03, 0x02, 0x10, 0x20] ∧
    rxBytes (received [0xF8, 0x03, 0x02, 0x00, 0xC0, 0x24] afterRa) =
      .ok [0xF8, 0x03, 0x02, 0x00, 0xC0, 0x24] ∧
    rxBytes (received respAddr afterRa) = .ok respAddr ∧ afterRa.ctx.op = .ra ∧
    rxBytes (received respFull afterRd) = .ok respFull ∧ afterRd.ctx.op = .rd ∧
    rxBytes State.reset = .ok [] ∧ State.reset.ctx.op = .none := by decide +kernel

/-- An exception response (V3): bit 7 of the echoed function code. -/
theorem witness_exceptionResponse :
    rxBytes (received [0xF8, 0x84, 0x02, 0x12, 0xF0] afterRd) = .ok [0xF8, 0x84, 0x02, 0x12, 0xF0] ∧
    (byteAt [0xF8, 0x84, 0x02, 0x12, 0xF0] 1).getLsbD 7 = true ∧
    afterRd.ctx.expFc ∈ [0x00#8, 0x03#8, 0x04#8, 0x06#8, 0x42#8] := by decide +kernel

/-- Accepted and not accepted under RA with two payload bytes, and accepted with one. -/
theorem witness_addressResult :
    2 ≤ (splitFrame respAddr).plen ∧ accepts afterRa (splitFrame respAddr) = true ∧
    accepts afterRa (splitFrame (respAddr.take 6 ++ [0x6F])) = false ∧
    accepts afterRa (splitFrame [0xF8, 0x03, 0x02, 0x00, 0xC0, 0x24]) = true ∧
    ¬ 2 ≤ (splitFrame [0xF8, 0x03, 0x02, 0x00, 0xC0, 0x24]).plen := by decide +kernel

/-- Accepted and not accepted under RD: V1, no data, another address, another function code. -/
theorem witness_readCompletion :
    accepts afterRd (splitFrame respFull) = true ∧ accepts afterRd (splitFrame [0xF8, 0x04]) = false ∧
    byteAt (0x01 :: respFull.drop 1) 0 ≠ afterRd.ctx.expAddr ∧
    byteAt [0xF8, 0x84, 0x02, 0x12, 0xF0] 1 ≠ afterRd.ctx.expFc := by decide +kernel

/-- Two states with the same response, context and strictness, different elsewhere. -/
theorem witness_validatorDepends :
    let s := received respAddr afterRa
    let s' := { received respAddr afterRa with crc := 0, params := ⟨25, false⟩, snap := ⟨1, 2, 3, 4, 5, 6, 7⟩ }
    rxBytes s = .ok respAddr ∧ rxBytes s' = .ok respAddr ∧ s.ctx = s'.ctx ∧
    s.params.strictCrcRead = s'.params.strictCrcRead ∧ s ≠ s' := by decide +kernel

/-- The last start register that a payload reaches, and the first it does not. -/
theorem witness_fill : fill [0x12, 0x34] 9 = List.replicate 18 0x00 ++ [0x12, 0x34] ∧ 10 ≤ (10#16).toNat ∧
    fill [0x12, 0x34] 10 = List.replicate 20 0x00 := by decide +kernel

/-- DECODE where the buffer is empty, where the start register is beyond the block, and a push limit of two. -/
theorem witness_decode : State.reset.rxlen = 0 ∧ rxBytes State.reset = .ok [] ∧ 10 ≤ (10#16).toNat ∧
    (9#16).toNat < 10 ∧ 2 ≤ pushLimit State.reset := by decide +kernel

/-- Two payloads that agree where voltage lies and differ after it, and two that differ in voltage only and agree where
each of the other fields lies. -/
theorem witness_decoderProperties : (∀ i, 0 ≤ i → i < 2 → landed [8, 9] 0 i = landed [8, 9, 7] 0 i) ∧
    landed [8, 9] 0 2 ≠ landed [8, 9, 7] 0 2 ∧
    (∀ i, 2 ≤ i → i < 20 → landed [8, 9] 0 i = landed [7, 9] 0 i) ∧ landed [8, 9] 0 0 ≠ landed [7, 9] 0 0 := by
  decide

/-- The three writers of the snapshot change it. -/
theorem witness_snapshotWriters :
    reaches (exec (.decode 0) (received [8, 9] State.reset)) (fun t => t.snap != State.reset.snap) = true ∧
    reaches (exec .validate (received respFull afterRd)) (fun t => t.snap != afterRd.snap) = true ∧
    reaches (exec .srst { State.reset with snap := ⟨1, 0, 0, 0, 0, 0, 0⟩ })
      (fun t => t.snap != ⟨1, 0, 0, 0, 0, 0, 0⟩) = true := by decide +kernel

/-- Unlisted port addresses at the ends of each range. -/
theorem witness_portUnlisted : ∀ addr ∈ [0x0E#8, 0x0F#8, 0x1A#8, 0x1F#8, 0x28#8, 0xFF#8],
    addr.toNat = 0x0E ∨ addr.toNat = 0x0F ∨ (0x1A ≤ addr.toNat ∧ addr.toNat ≤ 0x1F) ∨ 0x28 ≤ addr.toNat := by
  decide

/-- A command writes the frame of one and a byte of the other buffer (BufferWriters, ParametersFixed). -/
theorem witness_bufferWriters : reaches (exec (.rxPush 7) afterRe) (fun t => t.rxbuf != afterRe.rxbuf) = true ∧
    reaches (exec (.buildRe 1) afterRe) (fun t => t.txbuf != afterRe.txbuf) = true := by decide +kernel

/-- The idempotent commands complete. -/
theorem witness_idempotent : ∀ i ∈ [Instr.validate, .decode 3, .nop, .crcInit, .buildRa 1, .buildRd 1 2 3,
    .buildWa 1 2, .buildWa 1 1, .buildRe 1],
    reaches (exec i (received respAddr afterRa)) (fun _ => true) = true := by decide +kernel

/-- A state with a byte above RXLEN, and other contents that agree below it. -/
theorem witness_staleBytes :
    let s := { received [1, 2, 3] State.reset with rxlen := 2 }
    let m : Memory := [(0, 1), (1, 2), (2, 9), (5, 5)]
    (∀ j, j < s.rxlen → memRead s.params.rxCap m j = rxByte s j) ∧ m ≠ s.rxbuf ∧
    reaches (exec .validate s) (fun _ => true) = true := by decide +kernel

/-- States that differ in their flags only. -/
theorem witness_flags : ∃ t, exec .validate (received respAddr afterRa) = .next t :=
  ⟨_, exec_validate witness_rxBytes.2.2.2.2.1⟩

/-- A read exchange at RX_CAP exactly: ten registers into 25 bytes. -/
theorem witness_readExchange : (List.replicate 20 (0x11 : Byte)).length = 2 * (10#16).toNat ∧
    2 * (10#16).toNat + 5 ≤ (25 : Nat) ∧ (25 : Nat) ≤ 65535 := by decide

/-- The invariant holds of a state in the middle of a read exchange, with three bytes received. -/
theorem witness_invariant_receiving : ∃ s : State, MachineInv s ∧ s.rxlen = 3 ∧ s.ctx.op = .rd := by
  refine ⟨received [0xF8, 0x04, 0x14] (beginExchange .rd 0xF8 (prefixRd 0xF8 0 10) 25 0 State.reset),
    ⟨by decide, ⟨by decide, by decide, by decide, ?_⟩, ⟨rfl, 10, rfl, rfl, rfl⟩,
      ⟨fun _ => rfl, fun _ => rfl, rfl, rfl, rfl, rfl, fun h => ?_, fun _ => rfl⟩, by decide, fun h => ?_⟩,
    rfl, rfl⟩
  · intro i hi
    change i < 3 at hi
    match i, hi with
    | 0, _ => exact ⟨_, rfl⟩
    | 1, _ => exact ⟨_, rfl⟩
    | 2, _ => exact ⟨_, rfl⟩
  · exact absurd h (by decide)
  · exact absurd h (by decide)

/-- The invariant holds of a state that has just taken an address. -/
theorem witness_invariant_address : ∃ s : State, MachineInv s ∧ s.status.addrValid = true ∧ s.addrResult = 1 := by
  let s₀ := received respAddr (beginExchange .ra 0xF8 (prefixRa 0xF8) expectedRa 0 State.reset)
  have hst : (validateResponse respAddr s₀).status =
      ⟨false, true, true, true, true, true, true, false, false, false, false, .none⟩ := by decide +kernel
  have hv : (validateResponse respAddr s₀).verdict = ⟨0xF8, 0x03, 0x90E5, 0x90E5, 2⟩ := by decide +kernel
  have hc : (validateResponse respAddr s₀).ctx = ⟨.ra, 0xF8, 0x03, 7, 0⟩ := by decide +kernel
  have ha : (validateResponse respAddr s₀).addrResult = 1 := by decide +kernel
  have hr : rxBytes (validateResponse respAddr s₀) = .ok respAddr := by
    rw [rxBytes_validateResponse]; decide +kernel
  refine ⟨validateResponse respAddr s₀,
    ⟨by rw [validateResponse_params]; decide, ⟨by decide +kernel, by decide +kernel, by decide +kernel, fun i hi => ?_⟩,
      ?_, ⟨by rw [hst]; decide, by rw [hst]; decide, by rw [hst, hv]; rfl, by rw [hst, hv, hc]; rfl,
        by rw [hst, hv, hc]; rfl, by rw [hst, hc]; rfl, fun _ => ⟨by rw [hc], by rw [hst]⟩,
        by rw [hst]; decide⟩, by decide +kernel, by rw [hst]; decide⟩,
    by rw [hst], ha⟩
  · have hl := rxBytes_length hr
    exact ⟨_, ((rxBytes_ok_iff _ _).1 hr).2 i (by omega)⟩
  · unfold RequestOk Holds
    simp only [validateResponse_ctx, validateResponse_txbuf, validateResponse_txlen]
    exact ⟨rfl, rfl, rfl, rfl, rfl⟩

/-- The invariant holds after a rejected build. -/
theorem witness_invariant_rejected : MachineInv (rejectWa State.reset) ∧
    (rejectWa State.reset).status.errArg = true :=
  ⟨⟨by decide, ⟨rfl, by decide, by decide, fun _ h => absurd h (Nat.not_lt_zero _)⟩, ⟨rfl, rfl, rfl, rfl⟩,
    ⟨fun _ => rfl, fun _ => rfl, rfl, rfl, rfl, rfl, fun h => absurd h (by decide), fun _ => rfl⟩, by decide,
    fun _ => rfl⟩, rfl⟩

/-- A step from a state of the invariant that a command runs. -/
theorem witness_stepKeepsInvariant : ∃ t, step (issueNext 0x110000000001 State.reset) = .next t := ⟨_, rfl⟩

end Sys2Proof.Tests
end

section
/-! The invariant `MachineInv`: it holds after reset, and from every state that meets it every command and every step
completes in a state that meets it again. Each part of the invariant first has its own rules: what it rests on, and
what writes it. -/

namespace Sys2Proof.Machine

/-! ## The receive buffer (R24, R150, R151) -/

/-- The receive buffer's part rests on the parameters, RXBUF, RXLEN and the context only. -/
theorem RxOk.congr {s t : State} (h : RxOk s) (hp : t.params = s.params) (hb : t.rxbuf = s.rxbuf)
    (hl : t.rxlen = s.rxlen) (hc : t.ctx = s.ctx) : RxOk t where
  canonical := by rw [hb]; exact h.canonical
  inside := by rw [hb, hp]; exact h.inside
  limit := by simpa only [pushLimit, hp, hl, hc] using h.limit
  written := by simpa only [rxByte, hp, hb, hl] using h.written

/-- Discarding the received bytes keeps the receive buffer's part, whatever becomes of the context. -/
theorem RxOk.of_rxlen_zero {s t : State} (h : RxOk s) (hp : t.params = s.params) (hb : t.rxbuf = s.rxbuf)
    (hl : t.rxlen = 0) : RxOk t where
  canonical := by rw [hb]; exact h.canonical
  inside := by rw [hb, hp]; exact h.inside
  limit := by rw [hl]; exact Nat.zero_le _
  written i hi := by rw [hl] at hi; exact absurd hi (Nat.not_lt_zero i)

/-- A byte appended below the push limit keeps the receive buffer's part. -/
theorem RxOk.push {s : State} (h : RxOk s) (hlt : s.rxlen < pushLimit s) (b : Byte) :
    RxOk { s with rxbuf := memInsert s.rxbuf s.rxlen b, rxlen := s.rxlen + 1 } := by
  have hcap : s.rxlen < s.params.rxCap := Nat.lt_of_lt_of_le hlt (pushLimit_le s)
  refine ⟨memInsert_wf _ _ h.canonical, fun c hc => ?_, hlt, fun i hi => ?_⟩
  · rcases mem_memInsert hc with rfl | hc
    · exact hcap
    · exact h.inside c hc
  · rw [rxByte_push hcap]
    split
    · exact ⟨b, rfl⟩
    · next hne => exact h.written i (Nat.lt_of_le_of_ne (Nat.le_of_lt_succ hi) hne)

/-! ## The request (R23, R25) -/

/-- The request's part rests on the context and the transmit buffer only. -/
theorem RequestOk.congr {s t : State} (h : RequestOk s) (hc : t.ctx = s.ctx) (hb : t.txbuf = s.txbuf)
    (hl : t.txlen = s.txlen) : RequestOk t := by
  simpa only [RequestOk, Holds, hc, hb, hl] using h

/-- Beginning an exchange leaves the frame of its leading bytes `p` in the transmit buffer (R121). -/
theorem holds_beginExchange {p : List Byte} (h : p.length + 2 < 16) (op : CtxOp) (a : Byte) (e : BitVec 18)
    (w : Half) (s : State) : Holds (beginExchange op a p e w s) p :=
  ⟨rfl, by rw [(beginExchange_effect s op a p e w h).txlen]; simp [buildFrame, crcBytes]⟩

theorem requestOk_beginRa (a : Byte) (s : State) :
    RequestOk (beginExchange .ra a (prefixRa a) expectedRa 0 s) :=
  ⟨rfl, rfl, rfl, holds_beginExchange (by simp [prefixRa]) ..⟩

theorem requestOk_beginRd (a : Byte) (start count : Half) (s : State) :
    RequestOk (beginExchange .rd a (prefixRd a start count) (expectedRd count) start s) :=
  ⟨rfl, count, expectedRd_toNat count, holds_beginExchange (by simp [prefixRd]) ..⟩

theorem requestOk_beginWa {a : Byte} {n : Half} (h : validNewAddr n a = true) (s : State) :
    RequestOk (beginExchange .wa a (prefixWa a n) expectedWa 0 s) :=
  ⟨rfl, rfl, rfl, n, h, holds_beginExchange (by simp [prefixWa]) ..⟩

theorem requestOk_beginRe (a : Byte) (s : State) :
    RequestOk (beginExchange .re a (prefixRe a) expectedRe 0 s) :=
  ⟨rfl, rfl, rfl, holds_beginExchange (by simp [prefixRe]) ..⟩

/-! ## The verdict (R28, R30, R152–R157) -/

/-- Where a build or a reset has cleared the exchange, the verdict's part holds: no VALIDATE has run. -/
theorem BuildClears.verdictOk {t : State} (h : BuildClears t) : VerdictOk t where
  cleared _ := h.verdict
  pending _ := h.nodata
  crcok := by rw [h.crcok, h.vdone]; rfl
  fcok := by rw [h.fcok, h.vdone]; rfl
  addrok := by rw [h.addrok, h.vdone]; rfl
  accept := by rw [h.accept, h.vdone]; rfl
  addrValid hv := by rw [h.addrValid] at hv; cases hv
  addrUnknown _ := h.addrResult

/-- The CRC flag of a split response compares its two CRCs, and is false without data (R153). -/
theorem splitFrame_crcok (r : List Byte) : (splitFrame r).crcok =
    (!(splitFrame r).nodata && (splitFrame r).calcCrc == (splitFrame r).rxCrc) := by
  by_cases h : r.length < 4
  · rw [splitFrame_short h]; rfl
  · rw [splitFrame_long (Nat.not_lt.1 h)]; rfl

/-- ADDR_VALID after VALIDATE: only under RA, and only with the response accepted (R28, R157). -/
theorem validateResponse_addrValid {s : State} (h : VerdictOk s) (r : List Byte)
    (hv : (validateResponse r s).status.addrValid = true) :
    s.ctx.op = .ra ∧ accepts s (splitFrame r) = true := by
  by_cases hop : s.ctx.op = .ra
  · rw [(validateResponse_of_ra r hop).1, Bool.and_eq_true] at hv
    exact ⟨hop, hv.1⟩
  · rw [(validateResponse_of_not_ra r hop).1] at hv
    exact absurd (h.addrValid hv).1 hop

/-- ADDR_RESULT after VALIDATE is zero unless ADDR_VALID is set (R30, R157). -/
theorem validateResponse_addrUnknown {s : State} (h : VerdictOk s) (r : List Byte)
    (hv : (validateResponse r s).status.addrValid = false) : (validateResponse r s).addrResult = 0 := by
  by_cases hop : s.ctx.op = .ra
  · rw [(validateResponse_of_ra r hop).2, hv]; rfl
  · obtain ⟨hvalid, hresult⟩ := validateResponse_of_not_ra r hop
    rw [hresult]
    exact h.addrUnknown (hvalid ▸ hv)

/-- VALIDATE writes flags and registers that agree with each other. -/
theorem VerdictOk.validateResponse {s : State} (h : VerdictOk s) (r : List Byte) :
    VerdictOk (validateResponse r s) where
  cleared hc := by
    rw [validateResponse_status] at hc
    have hshort : r.length < 4 := by simpa using hc
    simp [splitFrame_short hshort, Verdict.empty]
  pending hp := by rw [validateResponse_status] at hp; cases hp
  crcok := by rw [validateResponse_status, validateResponse_verdict]; exact splitFrame_crcok r
  fcok := by rw [validateResponse_status, validateResponse_verdict, validateResponse_ctx]; rfl
  addrok := by rw [validateResponse_status, validateResponse_verdict, validateResponse_ctx]; rfl
  accept := by rw [validateResponse_status, validateResponse_params, validateResponse_ctx]; rfl
  addrValid hv := by
    rw [validateResponse_status, validateResponse_ctx]
    exact validateResponse_addrValid h r hv
  addrUnknown := validateResponse_addrUnknown h r

/-! ## The alarm (R28, R182) -/

/-- The alarm `Decode` returns is that of its own RAW_AL. -/
theorem decodePayload_alarm_iff (p : List Byte) (start : Half) :
    (decodePayload p start).alarm = true ↔ (decodePayload p start).fields.rawAl = 0xFFFF#16 :=
  beq_iff_eq

theorem validateResponse_alarm_iff {s : State} (h : s.status.alarm = true ↔ s.snap.rawAl = 0xFFFF#16)
    (r : List Byte) :
    (validateResponse r s).status.alarm = true ↔ (validateResponse r s).snap.rawAl = 0xFFFF#16 := by
  by_cases hread : s.ctx.op = .rd ∧ accepts s (splitFrame r) = true
  · obtain ⟨hsnap, halarm⟩ := validateResponse_of_read r hread
    rw [hsnap, halarm]
    exact decodePayload_alarm_iff _ _
  · obtain ⟨hsnap, halarm⟩ := validateResponse_of_not_read r hread
    rw [hsnap, halarm]
    exact h

/-! ## The whole invariant -/

/-- The invariant says nothing of CRC, RX_DROP, ERR_ILL, CAUSE and the host's list. -/
theorem MachineInv.of_unconstrained {s : State} (h : MachineInv s) (crc : Half) (drop ill : Bool) (cause : Cause)
    (events : List HostEvent) :
    MachineInv { s with
      crc := crc
      status := { s.status with rxDrop := drop, errIll := ill, cause := cause }
      hostEvents := events } where
  params := h.params
  rx := h.rx.congr rfl rfl rfl rfl
  request := h.request.congr rfl rfl rfl
  verdict := { h.verdict with }
  alarm := h.alarm
  errArg := h.errArg

/-- The reset state under any parameters within the bounds of R9 meets the invariant (R34). -/
theorem machineInv_resetWith {p : Params} (hp : ParamsOk p) (events : List HostEvent) :
    MachineInv (State.resetWith p events) where
  params := hp
  rx := ⟨rfl, by simp [State.resetWith], Nat.zero_le _, fun i hi => absurd hi (Nat.not_lt_zero i)⟩
  request := ⟨rfl, rfl, rfl, rfl⟩
  verdict := BuildClears.verdictOk ⟨rfl, rfl, rfl, rfl, rfl, rfl, rfl, rfl, rfl, rfl, rfl⟩
  alarm := by simp [State.resetWith, Status.empty, Snapshot.empty]
  errArg ha := by cases ha

/-- Beginning an exchange keeps the invariant where context and frame are those of one request (R121). -/
theorem MachineInv.beginExchange {s : State} (h : MachineInv s) {op : CtxOp} {a : Byte} {p : List Byte}
    {e : BitVec 18} {w : Half} (hreq : RequestOk (beginExchange op a p e w s)) :
    MachineInv (beginExchange op a p e w s) where
  params := h.params
  rx := h.rx.of_rxlen_zero rfl rfl rfl
  request := hreq
  verdict := BuildClears.verdictOk ⟨rfl, rfl, rfl, rfl, rfl, rfl, rfl, rfl, rfl, rfl, rfl⟩
  alarm := h.alarm
  errArg ha := by cases ha

/-- A rejected BUILD_WA keeps the invariant: it leaves no context (R125). -/
theorem MachineInv.rejectWa {s : State} (h : MachineInv s) : MachineInv (rejectWa s) where
  params := h.params
  rx := h.rx.of_rxlen_zero rfl rfl rfl
  request := ⟨rfl, rfl, rfl, rfl⟩
  verdict := (rejectWa_effect s).clears.verdictOk
  alarm := h.alarm
  errArg _ := rfl

theorem MachineInv.rxClear {s : State} (h : MachineInv s) :
    MachineInv { s with rxlen := 0, status := { s.status with rxDrop := false } } where
  params := h.params
  rx := h.rx.of_rxlen_zero rfl rfl rfl
  request := h.request.congr rfl rfl rfl
  verdict := { h.verdict with }
  alarm := h.alarm
  errArg := h.errArg

theorem MachineInv.push {s : State} (h : MachineInv s) (hlt : s.rxlen < pushLimit s) (b : Byte) :
    MachineInv { s with rxbuf := memInsert s.rxbuf s.rxlen b, rxlen := s.rxlen + 1 } where
  params := h.params
  rx := h.rx.push hlt b
  request := h.request.congr rfl rfl rfl
  verdict := { h.verdict with }
  alarm := h.alarm
  errArg := h.errArg

theorem MachineInv.validateResponse {s : State} (h : MachineInv s) (r : List Byte) :
    MachineInv (validateResponse r s) where
  params := by rw [validateResponse_params]; exact h.params
  rx := h.rx.congr (by simp) (by simp) (by simp) (by simp)
  request := h.request.congr (by simp) (by simp) (by simp)
  verdict := h.verdict.validateResponse r
  alarm := validateResponse_alarm_iff h.alarm r
  errArg := by rw [validateResponse_status, validateResponse_ctx]; exact h.errArg

theorem MachineInv.snapWrite {s : State} (h : MachineInv s) (p : List Byte) (start : Half) :
    MachineInv (snapWrite (decodePayload p start) s) where
  params := h.params
  rx := h.rx.congr rfl rfl rfl rfl
  request := h.request.congr rfl rfl rfl
  verdict := { h.verdict with }
  alarm := decodePayload_alarm_iff p start
  errArg := h.errArg

/-! ## Commands and steps -/

/-- A command that reads `RXBUF[0..RXLEN)` completes from the invariant, and keeps it where its effect does. -/
theorem withRxBytes_completes {s : State} (h : MachineInv s) {k : List Byte → State}
    (hk : ∀ r, MachineInv (k r)) : ∃ t, withRxBytes s k = .next t ∧ MachineInv t := by
  obtain ⟨r, hr⟩ := rxBytes_exists h.rx.written
  exact ⟨k r, withRxBytes_ok hr k, hk r⟩

/-- From the invariant every command completes, in a state of the invariant. -/
theorem exec_completes {s : State} (h : MachineInv s) (i : Instr) :
    ∃ t, exec i s = .next t ∧ MachineInv t := by
  cases i with
  | nop => exact ⟨_, rfl, h⟩
  | crcInit => exact ⟨_, rfl, h.of_unconstrained ..⟩
  | crcByte b => exact ⟨_, rfl, h.of_unconstrained ..⟩
  | buildRa a => exact ⟨_, rfl, h.beginExchange (requestOk_beginRa a s)⟩
  | buildRd a start count => exact ⟨_, rfl, h.beginExchange (requestOk_beginRd a start count s)⟩
  | buildWa a n =>
    rcases execBuildWa_cases a n s with ⟨hv, he⟩ | ⟨-, he⟩
    · exact ⟨_, he, h.beginExchange (requestOk_beginWa hv s)⟩
    · exact ⟨_, he, h.rejectWa⟩
  | rxClear => exact ⟨_, rfl, h.rxClear⟩
  | rxPush b =>
    rcases execRxPush_cases b s with ⟨hlt, he⟩ | ⟨-, he⟩
    · exact ⟨_, he, h.push hlt b⟩
    · exact ⟨_, he, h.of_unconstrained ..⟩
  | validate => exact withRxBytes_completes h h.validateResponse
  | decode start => exact withRxBytes_completes h fun r => h.snapWrite r start
  | buildRe a => exact ⟨_, rfl, h.beginExchange (requestOk_beginRe a s)⟩
  | srst => exact ⟨_, rfl, machineInv_resetWith h.params _⟩

/-- From the invariant every step completes, in a state of the invariant: idle, a command, an illegal word or a
reset from outside. -/
theorem step_completes {s : State} (h : MachineInv s) : ∃ t, step s = .next t ∧ MachineInv t := by
  have htaken (es : List HostEvent) : MachineInv { s with hostEvents := es } := h.of_unconstrained ..
  rcases step_cases s with ⟨-, hs⟩ | ⟨_, es, i, -, -, hs⟩ | ⟨_, es, _, -, -, hs⟩ | ⟨es, -, hs⟩
  · exact ⟨s, hs, h⟩
  · rw [hs]
    exact exec_completes (htaken es) i
  · exact ⟨_, hs, h.of_unconstrained ..⟩
  · exact ⟨_, hs, machineInv_resetWith h.params es⟩

/-- Settles O47: a step from the invariant completes in a state of the invariant, and a step has one answer. -/
theorem stepKeepsInvariant : Obligations.StepKeepsInvariant := by
  intro s t h hstep
  obtain ⟨u, hu, hinv⟩ := step_completes h
  rw [hstep] at hu
  cases hu
  exact hinv

/-- Settles O48: the step and each of the twelve commands complete from the invariant. -/
theorem everyCommandCompletes : Obligations.EveryCommandCompletes := fun _ h =>
  ⟨(step_completes h).imp fun _ ht => ht.1, fun i => (exec_completes h i).imp fun _ ht => ht.1⟩

/-- Settles O11: the recommended RX_CAP lies within the bounds of R9. -/
theorem resetMeetsInvariant : Obligations.ResetMeetsInvariant :=
  machineInv_resetWith (by decide) []

end Sys2Proof.Machine
end

section
/-! What each command does, as a relation with one named case per effect, so that a proof about all commands splits on
the effects; the frame an accepted build command leaves; and VALIDATE written as one update of the state. -/

namespace Sys2Proof.Machine

/-! ## The effects of the commands -/

/-- A build command performs one of the two build effects (R121, R125), the same from every state: its operands alone
decide which. -/
theorem exec_of_isBuild {i : Instr} (h : isBuild i = true) :
    (∃ op a pre e w, acceptedPrefix i = some pre ∧ ∀ s, exec i s = .next (beginExchange op a pre e w s)) ∨
    (acceptedPrefix i = none ∧ ∀ s, exec i s = .next (rejectWa s)) := by
  cases i with
  | buildRa a => exact .inl ⟨_, _, _, _, _, rfl, fun _ => rfl⟩
  | buildRd a start count => exact .inl ⟨_, _, _, _, _, rfl, fun _ => rfl⟩
  | buildRe a => exact .inl ⟨_, _, _, _, _, rfl, fun _ => rfl⟩
  | buildWa a n =>
    by_cases hv : validNewAddr n a = true
    · exact .inl ⟨_, _, _, _, _, if_pos hv, fun _ => if_pos hv⟩
    · exact .inr ⟨if_neg hv, fun _ => if_neg hv⟩
  | nop | crcInit | crcByte | rxClear | rxPush | validate | decode | srst => cases h

theorem isBuild_of_acceptedPrefix {i : Instr} {p : List Byte} (h : acceptedPrefix i = some p) :
    isBuild i = true := by
  cases i with
  | buildRa | buildRd | buildWa | buildRe => rfl
  | nop | crcInit | crcByte | rxClear | rxPush | validate | decode | srst => cases h

/-- `CommandEffect s i t`: command `i` takes `s` to `t`. A build command is described by its effect from every state,
which is one of two (`exec_of_isBuild`). -/
inductive CommandEffect (s : State) : Instr → State → Prop
  | nop : CommandEffect s .nop s
  | crcInit : CommandEffect s .crcInit { s with crc := crcInitial }
  | crcByte (b : Byte) : CommandEffect s (.crcByte b) { s with crc := crc16Step s.crc b }
  | begin {i : Instr} {op : CtxOp} {a : Byte} {p : List Byte} {e : BitVec 18} {w : Half}
      (build : isBuild i = true) (accepted : acceptedPrefix i = some p)
      (uniform : ∀ u, exec i u = .next (beginExchange op a p e w u)) :
      CommandEffect s i (beginExchange op a p e w s)
  | reject {i : Instr} (build : isBuild i = true) (rejected : acceptedPrefix i = none)
      (uniform : ∀ u, exec i u = .next (rejectWa u)) : CommandEffect s i (rejectWa s)
  | rxClear : CommandEffect s .rxClear { s with rxlen := 0, status := { s.status with rxDrop := false } }
  | append (b : Byte) (below : s.rxlen < pushLimit s) : CommandEffect s (.rxPush b)
      { s with rxbuf := memInsert s.rxbuf s.rxlen b, rxlen := s.rxlen + 1 }
  | drop (b : Byte) (full : pushLimit s ≤ s.rxlen) :
      CommandEffect s (.rxPush b) { s with status := { s.status with rxDrop := true } }
  | validate (r : List Byte) (bytes : rxBytes s = .ok r) : CommandEffect s .validate (validateResponse r s)
  | decode (start : Half) (r : List Byte) (bytes : rxBytes s = .ok r) :
      CommandEffect s (.decode start) (snapWrite (decodePayload r start) s)
  | srst : CommandEffect s .srst (resetState s)

theorem commandEffect_of_isBuild {i : Instr} {s t : State} (hb : isBuild i = true) (h : exec i s = .next t) :
    CommandEffect s i t := by
  rcases exec_of_isBuild hb with ⟨op, a, p, e, w, hp, he⟩ | ⟨hp, he⟩
  · cases (he s).symm.trans h
    exact .begin hb hp he
  · cases (he s).symm.trans h
    exact .reject hb hp he

/-- Below the push limit RX_PUSH appends its byte (R151). -/
theorem exec_rxPush_of_lt {s : State} (h : s.rxlen < pushLimit s) (b : Byte) :
    exec (.rxPush b) s = .next { s with rxbuf := memInsert s.rxbuf s.rxlen b, rxlen := s.rxlen + 1 } := by
  rcases execRxPush_cases b s with ⟨-, he⟩ | ⟨hge, -⟩
  · exact he
  · omega

/-- The relation describes `exec`: a command completes in `t` exactly when its effect leads there. -/
theorem exec_next_iff (i : Instr) (s t : State) : exec i s = .next t ↔ CommandEffect s i t := by
  constructor
  · intro h
    rcases exec_next_cases h with ⟨rfl, rfl⟩ | ⟨rfl, rfl⟩ | ⟨b, rfl, rfl⟩ | ⟨_, _, _, _, _, hb, -, -⟩ |
      ⟨hb, -, -⟩ | ⟨rfl, rfl⟩ | ⟨b, rfl, hlt, rfl⟩ | ⟨b, rfl, hge, rfl⟩ | ⟨r, rfl, hr, rfl⟩ |
      ⟨r, start, rfl, hr, rfl⟩ | ⟨rfl, rfl⟩
    · exact .nop
    · exact .crcInit
    · exact .crcByte b
    · exact commandEffect_of_isBuild hb h
    · exact commandEffect_of_isBuild hb h
    · exact .rxClear
    · exact .append b hlt
    · exact .drop b hge
    · exact .validate r hr
    · exact .decode start r hr
    · exact .srst
  · intro h
    cases h with
    | nop | crcInit | crcByte | rxClear | srst => rfl
    | begin _ _ he => exact he s
    | reject _ _ he => exact he s
    | append b hlt => exact exec_rxPush_of_lt hlt b
    | drop b hge => exact if_neg (Nat.not_lt.2 hge)
    | validate r hr => exact exec_validate hr
    | decode start r hr => exact exec_decode hr start

/-! ## The frame of an accepted build command -/

/-- The transmit image of a frame of at most eight bytes begins with the frame (R121). -/
theorem take_txImage {f : List Byte} (h : f.length ≤ 8) : (txImage f).toList.take f.length = f := by
  apply List.ext_getElem
  · simp [h]
  · intro j hj hf
    have := txImage_get f ⟨j, by omega⟩
    simpa [byteAt, hf] using this

/-- The frame in TXBUF after an exchange has begun is the built one (R121, R128). -/
theorem txFrame_beginExchange {p : List Byte} (h : p.length ≤ 6) (op : CtxOp) (a : Byte) (e : BitVec 18)
    (w : Half) (s : State) : txFrame (beginExchange op a p e w s) = p ++ [lo8 (crc16 p), hi8 (crc16 p)] := by
  have hlen : (BitVec.ofNat 4 (buildFrame p).length).toNat = (buildFrame p).length := by simp; omega
  rw [txFrame, beginExchange_txbuf, beginExchange_txlen, hlen, take_txImage (by simp; omega)]
  rfl

theorem acceptedPrefix_length_le {i : Instr} {p : List Byte} (h : acceptedPrefix i = some p) :
    p.length ≤ 6 := by
  cases i with
  | buildRa | buildRd | buildRe => cases h; simp
  | buildWa a n =>
    simp only [acceptedPrefix, Option.ite_none_right_eq_some, Option.some.injEq] at h
    simp [← h.2]
  | nop | crcInit | crcByte | rxClear | rxPush | validate | decode | srst => cases h

/-- An accepted build command begins an exchange with its frame's leading bytes. -/
theorem exec_of_acceptedPrefix {i : Instr} {p : List Byte} (h : acceptedPrefix i = some p) :
    ∃ op a e w, ∀ s, exec i s = .next (beginExchange op a p e w s) := by
  rcases exec_of_isBuild (isBuild_of_acceptedPrefix h) with ⟨op, a, q, e, w, hq, he⟩ | ⟨hnone, -⟩
  · cases hq.symm.trans h
    exact ⟨op, a, e, w, he⟩
  · cases hnone.symm.trans h

/-! ## VALIDATE as one update -/

/-- Beside the verdict VALIDATE writes ADDR_RESULT and ADDR_VALID under RA (R157), and the snapshot
and ALARM when it accepts under RD (R158). -/
theorem validateResponse_eq (r : List Byte) (s : State) :
    validateResponse r s =
      { recordVerdict (splitFrame r) s with
        addrResult := if s.ctx.op = .ra then
            (if accepts s (splitFrame r) ∧ 2 ≤ r.length - 5 then be16 (byteAt r 3) (byteAt r 4) else 0)
          else s.addrResult
        snap := if s.ctx.op = .rd ∧ accepts s (splitFrame r) = true then
            (decodePayload (bytesFrom r 3 (3 + (r.length - 5))) s.ctx.winStart).fields
          else s.snap
        status := { (recordVerdict (splitFrame r) s).status with
          addrValid := if s.ctx.op = .ra then decide (accepts s (splitFrame r) ∧ 2 ≤ r.length - 5)
            else s.status.addrValid
          alarm := if s.ctx.op = .rd ∧ accepts s (splitFrame r) = true then
              (decodePayload (bytesFrom r 3 (3 + (r.length - 5))) s.ctx.winStart).alarm
            else s.status.alarm } } := by
  rcases validateResponse_cases r s with ⟨hop, he⟩ | ⟨hop, hacc, he⟩ | ⟨hra, hacc, he⟩ <;> rw [he]
  · simp [addrResultWrite_eq, hop]
  · simp [snapWrite, hop, hacc]
  · have hread : ¬(s.ctx.op = .rd ∧ accepts s (splitFrame r) = true) := fun ⟨hop, ha⟩ => by
      rw [hacc hop] at ha; cases ha
    simp [recordVerdict, hra, hread]

end Sys2Proof.Machine
end

section
/-! Frames: which commands write which elements of the state (R23, R24, R29, R33, R211), and what RX_LOAD writes. -/

namespace Sys2Proof.Machine

/-! ## The parameters (R33) and the host's list (log entry 1) -/

/-- No command changes the parameters or the host's list. -/
theorem exec_params_hostEvents {i : Instr} {s t : State} (h : exec i s = .next t) :
    t.params = s.params ∧ t.hostEvents = s.hostEvents := by
  cases (exec_next_iff i s t).1 h <;> simp

/-- A step keeps the parameters and takes one event, if there is one, off the host's list. -/
theorem step_params_hostEvents {s t : State} (h : step s = .next t) :
    t.params = s.params ∧ t.hostEvents = s.hostEvents.tail := by
  rcases step_cases s with ⟨hnil, hs⟩ | ⟨w, es, i, hes, -, hs⟩ | ⟨w, es, e, hes, -, hs⟩ | ⟨es, hes, hs⟩ <;>
    rw [hs] at h
  · cases h; simp [hnil]
  · simpa [hes] using exec_params_hostEvents h
  · cases h; simp [hes]
  · cases h; simp [hes, hardwareReset]

/-- Settles O49: each command's effect keeps the parameters, and a step is one of those effects. -/
theorem parametersFixed : Obligations.ParametersFixed :=
  ⟨fun _ _ h => (step_params_hostEvents h).1, fun _ _ _ h => (exec_params_hostEvents h).1, fun _ => rfl⟩

/-- Settles O50: each command's effect keeps the host's list, and a step takes its event off. -/
theorem commandsAreTheHosts : Obligations.CommandsAreTheHosts :=
  ⟨fun _ _ _ h => (exec_params_hostEvents h).2, fun _ _ h => (step_params_hostEvents h).2⟩

/-! ## The snapshot and ALARM (R29, R183) -/

/-- Where VALIDATE changes the snapshot or ALARM, it has accepted a response under RD. -/
theorem accept_of_validateResponse_changes_snapshot {r : List Byte} {s : State}
    (h : (validateResponse r s).snap ≠ s.snap ∨ (validateResponse r s).status.alarm ≠ s.status.alarm) :
    s.ctx.op = .rd ∧ (validateResponse r s).status.accept = true := by
  by_cases hread : s.ctx.op = .rd ∧ accepts s (splitFrame r) = true
  · rw [validateResponse_status]
    exact hread
  · simp [validateResponse_of_not_read r hread] at h

/-- Settles O42: of the effects of commands only `SnapWrite` and the reset write the snapshot or ALARM. -/
theorem snapshotWriters : Obligations.SnapshotWriters := by
  refine ⟨fun i s t h hdiff => ?_, fun s t h => by cases h; exact ⟨rfl, rfl⟩⟩
  cases (exec_next_iff i s t).1 h with
  | decode start => exact .inl ⟨start, rfl⟩
  | validate r => exact .inr (.inl ⟨rfl, accept_of_validateResponse_changes_snapshot hdiff⟩)
  | srst => exact .inr (.inr rfl)
  | nop | crcInit | crcByte | begin | reject | rxClear | append | drop => simp at hdiff

/-! ## The sticky flags (R211) -/

/-- Settles O53: each effect that clears a sticky flag belongs to a command the statement leaves out. -/
theorem stickyFlagsLast : Obligations.StickyFlagsLast := by
  refine ⟨fun i s t h hsrst => ?_, fun s t h => by cases h; exact ⟨rfl, rfl, rfl⟩⟩
  cases (exec_next_iff i s t).1 h with
  | begin hb hp => simp [hb, hp]
  | reject hb => simp [hb]
  | rxClear => exact ⟨id, fun h _ => h, fun _ hne => absurd rfl hne⟩
  | drop => exact ⟨id, fun h _ => h, fun _ _ _ => rfl⟩
  | validate r => rw [validateResponse_status]; exact ⟨id, fun h _ => h, fun h _ _ => h⟩
  | nop | crcInit | crcByte | append | decode => exact ⟨id, fun h _ => h, fun h _ _ => h⟩
  | srst => exact absurd rfl hsrst

/-! ## The buffers (R23, R24) -/

/-- Settles O55: the build effects write TXBUF and TXLEN, an append writes RXBUF at RXLEN. -/
theorem bufferWriters : Obligations.BufferWriters := by
  intro i s t h hsrst
  cases (exec_next_iff i s t).1 h with
  | begin hb => simp [hb, rxByte]
  | reject hb => simp [hb, rxByte]
  | append b hlt =>
    refine ⟨fun _ => ⟨rfl, rfl⟩, fun a ha => ?_⟩
    rw [rxByte_push (Nat.lt_of_lt_of_le hlt (pushLimit_le s))] at ha ⊢
    by_cases hal : a = s.rxlen
    · exact ⟨hal, b, rfl, if_pos hal⟩
    · exact absurd (if_neg hal) ha
  | nop | crcInit | crcByte | rxClear | drop | validate | decode => simp [rxByte]
  | srst => exact absurd rfl hsrst

/-! ## RX_LOAD (R76, R150, R151) -/

/-- Settles O28: after RX_CLEAR nothing is received, and the pushes append up to the push limit. -/
theorem rxLoadStoresBytes : Obligations.RxLoadStoresBytes := by
  intro s bs
  obtain ⟨t, hrun, hbytes, hlen, hdrop, hframe⟩ :=
    execSeq_rxPush bs (s := { s with rxlen := 0, status := { s.status with rxDrop := false } }) (r := [])
      rfl (Nat.zero_le _)
  refine ⟨t, hrun, hbytes, ?_, ?_, ?_⟩
  · rw [hlen, Nat.zero_add]; rfl
  · rw [hdrop, Nat.zero_add]; rfl
  · exact congrArg (fun u : State =>
      { u with rxlen := s.rxlen, status := { u.status with rxDrop := s.status.rxDrop } }) hframe

end Sys2Proof.Machine
end

section
/-! Noninterference: what the accumulator (R22), the flags (R31) and the stale bytes of RXBUF (R24, R32) have no
influence on. Each time a command runs from two states that differ in that element only. -/

namespace Sys2Proof.Machine

/-! ## The CRC accumulator (R22) -/

/-- VALIDATE neither reads nor writes the accumulator. -/
theorem validateResponse_with_crc (r : List Byte) (s : State) (c : Half) :
    validateResponse r { s with crc := c } = { validateResponse r s with crc := c } := by
  simp only [validateResponse_eq]
  rfl

/-- But for the CRC commands and SRST, a command does the same with any accumulator value and passes it on. -/
theorem exec_with_crc {i : Instr} {s t : State} (h : exec i s = .next t) (hinit : i ≠ .crcInit)
    (hbyte : ∀ b, i ≠ .crcByte b) (hsrst : i ≠ .srst) (c : Half) :
    exec i { s with crc := c } = .next { t with crc := c } := by
  cases (exec_next_iff i s t).1 h with
  | nop => rfl
  | begin _ _ he => exact he _
  | reject _ _ he => exact he _
  | rxClear => rfl
  | append b hlt => exact exec_rxPush_of_lt (s := { s with crc := c }) hlt b
  | drop b hge => exact (exec_next_iff ..).2 (.drop b hge)
  | validate r hr => rw [← validateResponse_with_crc]; exact exec_validate hr
  | decode start r hr => exact exec_decode (s := { s with crc := c }) hr start
  | crcInit => exact absurd rfl hinit
  | crcByte b => exact absurd rfl (hbyte b)
  | srst => exact absurd rfl hsrst

/-- But for the CRC commands and SRST, a command keeps the accumulator: it passes on the value it found. -/
theorem exec_crc {i : Instr} {s t : State} (h : exec i s = .next t) (hinit : i ≠ .crcInit)
    (hbyte : ∀ b, i ≠ .crcByte b) (hsrst : i ≠ .srst) : t.crc = s.crc := by
  have hsame : exec i s = .next { t with crc := s.crc } := exec_with_crc h hinit hbyte hsrst s.crc
  have ht : t = { t with crc := s.crc } := Host.Outcome.next.inj (h.symm.trans hsame)
  exact (congrArg State.crc ht :)

/-- Settles O51: `exec_with_crc` for the commands, and the CRCs of frames and of VALIDATE through `crc16`. -/
theorem crcAccumulatorIsolated : Obligations.CrcAccumulatorIsolated := by
  refine ⟨fun i s t h hinit hbyte hsrst => ⟨exec_crc h hinit hbyte hsrst, exec_with_crc h hinit hbyte hsrst⟩,
    fun s b => ⟨_, rfl, rfl⟩, fun s => ⟨_, rfl, rfl⟩, fun s => ⟨_, rfl, rfl, rfl⟩,
    fun s t h => by cases h; rfl, fun i p s hp => ?_, fun s r hr hlen => ?_⟩
  · obtain ⟨op, a, e, w, he⟩ := exec_of_acceptedPrefix hp
    exact ⟨_, he s, txFrame_beginExchange (acceptedPrefix_length_le hp) .., rfl⟩
  · exact ⟨_, exec_validate hr, by rw [validateResponse_verdict, splitFrame_long hlen], validateResponse_crc r s⟩

/-! ## The flags (R31) -/

/-- Two runs of a command, from flags `s` to `t` and from flags `s'` to `t'`, wrote each flag and CAUSE alike or left
it alone. -/
def FlagsWrittenAlike (s t s' t' : Status) : Prop :=
  (∀ flag ∈ [Status.nodata, Status.crcok, Status.fcok, Status.addrok, Status.accept, Status.vdone,
      Status.addrValid, Status.alarm, Status.errArg, Status.errIll, Status.rxDrop],
    flag t' = flag t ∨ (flag t' = flag s' ∧ flag t = flag s)) ∧
  (t'.cause = t.cause ∨ (t'.cause = s'.cause ∧ t.cause = s.cause))

/-- The two runs leave all flags alone. -/
theorem FlagsWrittenAlike.refl (s s' : Status) : FlagsWrittenAlike s s s' s' :=
  ⟨fun _ _ => .inr ⟨rfl, rfl⟩, .inr ⟨rfl, rfl⟩⟩

/-- But for the flags it writes, what VALIDATE does depends on no flag. -/
theorem validateResponse_with_status (r : List Byte) (s : State) (st : Status) :
    { validateResponse r { s with status := st } with status := (validateResponse r s).status } =
      validateResponse r s := by
  simp only [validateResponse_eq]
  rfl

/-- The flags VALIDATE writes are the same whatever flags it starts from. -/
theorem validateResponse_flagsWrittenAlike (r : List Byte) (s : State) (st : Status) :
    FlagsWrittenAlike s.status (validateResponse r s).status st
      (validateResponse r { s with status := st }).status := by
  have hacc : accepts { s with status := st } = accepts s := rfl
  simp only [validateResponse_eq, hacc]
  by_cases hra : s.ctx.op = .ra <;>
    by_cases hread : s.ctx.op = .rd ∧ accepts s (splitFrame r) = true <;>
      simp [FlagsWrittenAlike, recordVerdict, fcEcho, addrEcho, hacc, hra, hread]

/-- Settles O54: every effect writes its flags from what is outside STATUS, and leaves the others alone. -/
theorem flagsAreNoInput : Obligations.FlagsAreNoInput := by
  intro i s t st h
  change ∃ t' : State, _ ∧ _ ∧ FlagsWrittenAlike s.status t.status st t'.status
  cases (exec_next_iff i s t).1 h with
  | nop | crcInit | crcByte => exact ⟨_, rfl, rfl, .refl ..⟩
  | begin _ _ he => exact ⟨_, he _, rfl, by simp [FlagsWrittenAlike]⟩
  | reject _ _ he => exact ⟨_, he _, rfl, by simp [FlagsWrittenAlike]⟩
  | rxClear => exact ⟨_, rfl, rfl, by simp [FlagsWrittenAlike]⟩
  | append b hlt => exact ⟨_, exec_rxPush_of_lt (s := { s with status := st }) hlt b, rfl, .refl ..⟩
  | drop b hge => exact ⟨_, (exec_next_iff ..).2 (.drop b hge), rfl, by simp [FlagsWrittenAlike]⟩
  | validate r hr =>
    exact ⟨_, exec_validate hr, validateResponse_with_status r s st, validateResponse_flagsWrittenAlike r s st⟩
  | decode start r hr =>
    exact ⟨_, exec_decode (s := { s with status := st }) hr start, rfl, by simp [FlagsWrittenAlike]⟩
  | srst => exact ⟨_, rfl, rfl, by simp [FlagsWrittenAlike]⟩

/-! ## The stale bytes of RXBUF (R24, R32) -/

/-- VALIDATE works on the bytes it was given and leaves RXBUF alone. -/
theorem validateResponse_with_rxbuf (r : List Byte) (s : State) (m : Memory) :
    validateResponse r { s with rxbuf := m } = { validateResponse r s with rxbuf := m } := by
  simp only [validateResponse_eq]
  rfl

/-- Settles O57: the effects read RXBUF below RXLEN only, and an append writes the same byte at RXLEN into either
contents. -/
theorem staleBytesUnobservable : Obligations.StaleBytesUnobservable := by
  intro i s t m h hsrst hm
  have hbytes : rxBytes { s with rxbuf := m } = rxBytes s := rxBytes_congr rfl hm
  cases (exec_next_iff i s t).1 h with
  | nop | crcInit | crcByte => exact ⟨_, rfl, rfl, hm⟩
  | begin _ _ he => exact ⟨_, he _, rfl, fun j hj => absurd hj (Nat.not_lt_zero j)⟩
  | reject _ _ he => exact ⟨_, he _, rfl, fun j hj => absurd hj (Nat.not_lt_zero j)⟩
  | rxClear => exact ⟨_, rfl, rfl, fun j hj => absurd hj (Nat.not_lt_zero j)⟩
  | append b hlt =>
    refine ⟨_, exec_rxPush_of_lt (s := { s with rxbuf := m }) hlt b, rfl, fun j hj => ?_⟩
    have hcap : s.rxlen < s.params.rxCap := Nat.lt_of_lt_of_le hlt (pushLimit_le s)
    rw [rxByte_push hcap, rxByte_push (s := { s with rxbuf := m }) hcap]
    split
    · rfl
    · next hne => exact hm j (Nat.lt_of_le_of_ne (Nat.le_of_lt_succ hj) hne)
  | drop b hge => exact ⟨_, (exec_next_iff ..).2 (.drop b hge), rfl, hm⟩
  | validate r hr =>
    refine ⟨_, exec_validate (hbytes.trans hr), by rw [validateResponse_with_rxbuf], fun j hj => ?_⟩
    rw [validateResponse_rxlen] at hj
    simpa [rxByte] using hm j hj
  | decode start r hr => exact ⟨_, exec_decode (hbytes.trans hr) start, rfl, hm⟩
  | srst => exact absurd rfl hsrst

end Sys2Proof.Machine
end

section
/-! The register port (R27, R28) and the reset state (R34). -/

namespace Sys2Proof.Machine

/-! ## The STATUS word (R28) -/

/-- A flag's word has the flag at its bit and zeros elsewhere. -/
theorem flagBit_getLsbD {k : Nat} (hk : k < 16) (n : Nat) (b : Bool) :
    (flagBit n b).getLsbD k = (decide (k = n) && b) := by
  have hbit : (1#16 <<< n).getLsbD k = decide (k = n) := by
    rw [← BitVec.twoPow_eq, BitVec.getLsbD_twoPow]
    grind
  cases b <;> simp [flagBit, hbit]

/-- CAUSE lies above bit 11 of the STATUS word. -/
theorem causeField_getLsbD {k : Nat} (hk : k < 16) (c : Cause) :
    ((causeCode c).setWidth 16 <<< 12).getLsbD k = (decide (12 ≤ k) && (causeCode c).getLsbD (k - 12)) := by
  simp only [BitVec.getLsbD_shiftLeft, BitVec.getLsbD_setWidth]
  grind

/-- The top four bits of the STATUS word are CAUSE. -/
theorem statusWord_cause (st : Status) : (statusWord st).extractLsb' 12 4 = causeCode st.cause := by
  apply BitVec.eq_of_getLsbD_eq
  intro k hk
  have hbit (n : Nat) (b : Bool) (hn : n ≤ 10) : (flagBit n b).getLsbD (12 + k) = false := by
    rw [flagBit_getLsbD (by omega)]
    simp
    omega
  have hcause := causeField_getLsbD (show 12 + k < 16 by omega) st.cause
  simp only [statusWord, BitVec.getLsbD_extractLsb', BitVec.getLsbD_or, hcause, hbit, hk, Nat.reduceLeDiff]
  simp

/-- The port shows the STATUS word at address 0x00. -/
theorem readPort_status (s : State) : readPort s 0x00 = statusWord s.status := rfl

/-- Settles O46: each bit of the word is that of one flag's word, the cause codes by evaluation. -/
theorem statusLayout : Obligations.StatusLayout := by
  refine ⟨fun s => ?_, by decide⟩
  rw [readPort_status]
  refine ⟨?_, ?_, ?_, ?_, ?_, ?_, ?_, ?_, ?_, ?_, ?_, ?_, statusWord_cause _⟩
  all_goals simp [-BitVec.getLsbD_eq_getElem, statusWord, flagBit_getLsbD]

/-! ## The register map (R27) -/

/-- Every address that R27 does not list reads 0x0000. -/
theorem readPort_unlisted (s : State) {addr : Byte} (h : addr.toNat = 0x0E ∨ addr.toNat = 0x0F ∨
    (0x1A ≤ addr.toNat ∧ addr.toNat ≤ 0x1F) ∨ 0x28 ≤ addr.toNat) : readPort s addr = 0x0000#16 := by
  unfold readPort
  split
  case h_33 => rfl
  all_goals simp at h

/-- The port shows byte `i` of TXBUF at address `0x20 + i`. -/
theorem readPort_txbuf (s : State) (i : Fin 8) :
    readPort s (BitVec.ofNat 8 (0x20 + i.val)) = (s.txbuf[i]).setWidth 16 := by
  fin_cases i <;> rfl

/-- Two bytes side by side in one register. -/
theorem be16_eq_append (hi lo : Byte) : be16 hi lo = hi ++ lo := by
  apply BitVec.eq_of_toNat_eq
  rw [be16_toNat, BitVec.toNat_append, ← Nat.shiftLeft_add_eq_or_of_lt lo.isLt, Nat.shiftLeft_eq]
  omega

/-- The port shows CTX_OP below EXP_FC, with five zero bits between. -/
theorem readPort_ctx (s : State) : readPort s 0x04 = s.ctx.expFc ++ (0#5 ++ ctxCode s.ctx.op) := by
  rw [← be16_eq_append]
  have hcode : (ctxCode s.ctx.op).setWidth 16 = (0#5 ++ ctxCode s.ctx.op : Byte).setWidth 16 := by
    cases s.ctx.op <;> rfl
  exact congrArg (s.ctx.expFc.setWidth 16 <<< 8 ||| ·) hcode

/-- The port shows V_FC above V_ADDR. -/
theorem readPort_verdict (s : State) : readPort s 0x09 = s.verdict.fc ++ s.verdict.addr :=
  be16_eq_append _ _

/-- The low 16 bits of a wider value, as a number. -/
theorem lowHalf_toNat {n : Nat} (v : BitVec n) : (v.extractLsb' 0 16).toNat = v.toNat % 65536 := by
  simp

/-- The bits from 16 on of a wider value, as a number. -/
theorem highPart_toNat {k : Nat} (v : BitVec (16 + k)) : (v.extractLsb' 16 k).toNat = v.toNat / 65536 := by
  have hv := v.isLt
  rw [Nat.pow_add, Nat.mul_comm] at hv
  rw [BitVec.extractLsb'_toNat, Nat.shiftRight_eq_div_pow]
  exact Nat.mod_eq_of_lt (Nat.div_lt_of_lt_mul (Nat.mul_comm .. ▸ hv))

/-- The port shows the upper two bits of EXP_LEN at address 0x07. -/
theorem readPort_expLen_high (s : State) : (readPort s 0x07).toNat = s.ctx.expLen.toNat / 65536 :=
  (BitVec.toNat_setWidth_of_le (by decide)).trans (highPart_toNat (k := 2) _)

/-- Settles O44: address by address; the fields that share a register by what the port shows there. -/
theorem portMap : Obligations.PortMap := by
  intro s
  have hbyte (b : Byte) : (b.setWidth 16).toNat = b.toNat := BitVec.toNat_setWidth_of_le (by decide)
  refine ⟨rfl, rfl, BitVec.toNat_setWidth_of_le (by decide), BitVec.toNat_ofNat .., ?_, ?_, ?_, hbyte _,
    lowHalf_toNat _, readPort_expLen_high s, rfl, ?_, ?_, rfl, rfl, rfl, rfl, rfl, lowHalf_toNat _,
    highPart_toNat (k := 16) _, lowHalf_toNat _, highPart_toNat (k := 16) _, lowHalf_toNat _,
    highPart_toNat (k := 16) _, rfl, rfl, rfl, fun i => ?_, fun addr h => readPort_unlisted s h⟩
  · rw [readPort_ctx, BitVec.extractLsb'_append_eq_of_add_le (by decide), BitVec.extractLsb'_append_eq_right]
  · rw [readPort_ctx, BitVec.extractLsb'_append_eq_of_add_le (by decide), BitVec.extractLsb'_append_eq_left]
    rfl
  · rw [readPort_ctx, BitVec.extractLsb'_append_eq_left]
  · rw [readPort_verdict, BitVec.extractLsb'_append_eq_right]
  · rw [readPort_verdict, BitVec.extractLsb'_append_eq_left]
  · rw [readPort_txbuf, hbyte]

/-- Settles O45: the two halves are adjacent extracts of one value. -/
theorem portSplitsWideValues : Obligations.PortSplitsWideValues := by
  intro s
  have hword (v : Word) : v.extractLsb' 16 16 ++ v.extractLsb' 0 16 = v := by
    rw [BitVec.extractLsb'_append_extractLsb'_eq_extractLsb' (by rfl)]
    exact BitVec.extractLsb'_eq_self
  refine ⟨hword _, hword _, hword _, ?_⟩
  rw [readPort_expLen_high, show readPort s 0x06 = s.ctx.expLen.extractLsb' 0 16 from rfl, lowHalf_toNat]
  exact Nat.div_add_mod _ _

/-! ## The reset state (R34, R201) -/

/-- Every word with opcode 0xFF is an SRST (R72). -/
theorem decodes_srst : Decodes 0xFF (fun _ => .srst) := by
  intro w h
  rw [← fieldOpc_eq] at h
  unfold decode
  rw [h]
  rfl

/-- Settles O10: SRST by its effect, ERR_ILL by the sticky flags (O53). -/
theorem srstRestoresResetState : Obligations.SrstRestoresResetState := by
  have hstatus : statusWord Status.empty = 0x0000#16 := by decide
  have hsnap : Snapshot.empty = (decodePayload [] 0).fields := by decide
  have htx (i : Fin 8) : (txImage [])[i] = 0x00#8 := (txImage_get [] i).trans (by simp [byteAt])
  refine ⟨decodes_srst, fun s => ?_, fun i s t hsrst h => (stickyFlagsLast.1 i s t h hsrst).1, rfl⟩
  exact ⟨_, rfl, rfl, rfl, htx, rfl, rfl, rfl, rfl, rfl, rfl, rfl, rfl, rfl, hstatus, rfl, rfl, rfl, hsnap, rfl⟩

end Sys2Proof.Machine
end

section
/-! Two-register values (R53), the commands that may be repeated (R56), and the step as the host's next event (R60). -/

namespace Sys2Proof.Machine

/-! ## Two-register values (R53) -/

/-- One register of the decode buffer is its two bytes side by side, the first above the second. -/
theorem regOf_eq_append (buf : List Byte) (j : Nat) :
    regOf buf j = byteAt buf (2 * j) ++ byteAt buf (2 * j + 1) :=
  be16_eq_append _ _

/-- The sum of a pair of registers fits its 32 bits. -/
theorem regPair_toNat (buf : List Byte) (k : Nat) :
    (regPair buf k).toNat = (regOf buf k).toNat + (regOf buf (k + 1)).toNat * 2 ^ 16 := by
  have hlow := (regOf buf k).isLt
  have hhigh := (regOf buf (k + 1)).isLt
  simp only [regPair, BitVec.toNat_add, BitVec.toNat_shiftLeft, BitVec.toNat_setWidth, Nat.shiftLeft_eq]
  omega

/-- A pair of registers has its second register in the upper half, its first in the lower. -/
theorem regPair_eq_append (buf : List Byte) (k : Nat) :
    regPair buf k = regOf buf (k + 1) ++ regOf buf k := by
  apply BitVec.eq_of_toNat_eq
  rw [regPair_toNat, BitVec.toNat_append, ← Nat.shiftLeft_add_eq_or_of_lt (regOf buf k).isLt, Nat.shiftLeft_eq,
    Nat.add_comm]

/-- Settles O39: the second register above the first, and each register its two bytes. -/
theorem registerPairWireOrder : Obligations.RegisterPairWireOrder := by
  refine fun buf k => ⟨regPair_toNat buf k, regOf_eq_append buf k, ?_⟩
  rw [BitVec.append_assoc, BitVec.cast_eq, regPair_eq_append, regOf_eq_append, regOf_eq_append, Nat.mul_add_one]

/-! ## Repeated commands (R56) -/

/-! Each state update of a listed command, done twice, is the update done once. -/

theorem beginExchange_idem (op : CtxOp) (a : Byte) (p : List Byte) (e : BitVec 18) (w : Half) (s : State) :
    beginExchange op a p e w (beginExchange op a p e w s) = beginExchange op a p e w s := rfl

theorem rejectWa_idem (s : State) : rejectWa (rejectWa s) = rejectWa s := rfl

theorem snapWrite_idem (d : Decoded) (s : State) : snapWrite d (snapWrite d s) = snapWrite d s := rfl

theorem addrResultWrite_idem (acc : Bool) (plen : Nat) (r : List Byte) (s : State) :
    addrResultWrite acc plen r (addrResultWrite acc plen r s) = addrResultWrite acc plen r s := by
  simp only [addrResultWrite_eq]

/-- VALIDATE keeps what the acceptance of a response rests on: the context and STRICT_CRC_READ. -/
theorem accepts_validateResponse (r : List Byte) (s : State) : accepts (validateResponse r s) = accepts s := by
  funext sp
  simp [accepts, fcEcho, addrEcho]

/-- After VALIDATE of a response its verdict is on record, whatever the completion action. -/
theorem recordVerdict_validateResponse (r : List Byte) (s : State) :
    recordVerdict (splitFrame r) (validateResponse r s) = validateResponse r s := by
  rcases validateResponse_cases r s with ⟨-, he⟩ | ⟨-, -, he⟩ | ⟨-, -, he⟩
  · rw [he, addrResultWrite_eq]; rfl
  · rw [he]; rfl
  · rw [he]; rfl

/-- Under RA, VALIDATE ends with the address result (R157). -/
theorem validateResponse_eq_addrResultWrite (r : List Byte) {s : State} (hop : s.ctx.op = .ra) :
    validateResponse r s = addrResultWrite (accepts s (splitFrame r)) (splitFrame r).plen r
      (recordVerdict (splitFrame r) s) := by
  simp [validateResponse, hop]

/-- Accepted under RD, VALIDATE ends with the snapshot (R158). -/
theorem validateResponse_eq_snapWrite (r : List Byte) {s : State} (hop : s.ctx.op = .rd)
    (hacc : accepts s (splitFrame r) = true) :
    validateResponse r s = snapWrite (decodePayload (bytesFrom r 3 (3 + (splitFrame r).plen)) s.ctx.winStart)
      (recordVerdict (splitFrame r) s) := by
  simp [validateResponse, hop, hacc]

/-- A second VALIDATE of a response finds its verdict on record and its completion action done (R159 (b)). -/
theorem validateResponse_idem (r : List Byte) (s : State) :
    validateResponse r (validateResponse r s) = validateResponse r s := by
  rcases validateResponse_cases r (validateResponse r s) with ⟨hop, he⟩ | ⟨hop, hacc, he⟩ | ⟨-, -, he⟩ <;>
    rw [he, recordVerdict_validateResponse]
  · rw [validateResponse_ctx] at hop
    rw [accepts_validateResponse, validateResponse_eq_addrResultWrite r hop, addrResultWrite_idem]
  · rw [validateResponse_ctx] at hop ⊢
    rw [accepts_validateResponse] at hacc
    rw [validateResponse_eq_snapWrite r hop hacc, snapWrite_idem]

/-! The commands themselves. -/

theorem exec_validate_idem {s t : State} (h : exec .validate s = .next t) : exec .validate t = .next t := by
  obtain ⟨r, hr, rfl⟩ := (withRxBytes_next_iff ..).1 h
  rw [exec_validate ((rxBytes_validateResponse r s).trans hr), validateResponse_idem]

theorem exec_decode_idem {start : Half} {s t : State} (h : exec (.decode start) s = .next t) :
    exec (.decode start) t = .next t := by
  obtain ⟨r, hr, rfl⟩ := (withRxBytes_next_iff ..).1 h
  have hr' : rxBytes (snapWrite (decodePayload r start) s) = .ok r := hr
  rw [exec_decode hr', snapWrite_idem]

theorem exec_build_idem {i : Instr} {s t : State} (hb : isBuild i = true) (h : exec i s = .next t) :
    exec i t = .next t := by
  rcases exec_of_isBuild hb with ⟨op, a, p, e, w, -, he⟩ | ⟨-, he⟩
  · cases (he s).symm.trans h
    rw [he, beginExchange_idem]
  · cases (he s).symm.trans h
    rw [he, rejectWa_idem]

/-- CRC_BYTE leaves its byte folded into the accumulator (R104). -/
theorem crc_of_exec_crcByte {b : Byte} {s t : State} (h : exec (.crcByte b) s = .next t) :
    t.crc = crc16Step s.crc b := by
  cases h
  rfl

/-- Settles O56: each listed command by its update, done twice; from the reset state a second RX_PUSH of 0x00 makes
RXLEN 2, and a second CRC_BYTE of 0x00 moves the accumulator on from 0x40BF. -/
theorem idempotentCommands : Obligations.IdempotentCommands := by
  refine ⟨fun i s t hi h => ?_, ⟨0, State.reset, _, rfl, fun h => ?_⟩,
    ⟨0, State.reset, { State.reset with crc := 0x40BF }, ?_, fun h => ?_⟩⟩
  · rcases hi with rfl | ⟨start, rfl⟩ | rfl | rfl | hb
    · exact exec_validate_idem h
    · exact exec_decode_idem h
    · cases h; rfl
    · cases h; rfl
    · exact exec_build_idem hb h
  · have hlen : 2 = 1 := congrArg State.rxlen (Host.Outcome.next.inj h)
    exact absurd hlen (by decide)
  · have hfirst : crc16Step State.reset.crc 0 = 0x40BF := by decide
    exact congrArg (fun c => Host.Outcome.next { State.reset with crc := c }) hfirst
  · have hsecond : 0x40BF = crc16Step 0x40BF 0 := crc_of_exec_crcByte h
    exact absurd hsecond (by decide)

/-! ## The host's next event (R56, R60, R70, R230) -/

/-- A step is the host's next event, taken off its list. -/
theorem step_of_hostEvents {s : State} {e : HostEvent} {es : List HostEvent} (h : s.hostEvents = e :: es) :
    step s = runEvent e { s with hostEvents := es } := by
  simp [step, takeEvent, h]

/-- A word that decodes runs as its command. -/
theorem runWord_of_decode {w : Command} {i : Instr} (h : decode w = .ok i) (s : State) :
    runWord w s = exec i s := by
  simp [runWord, h]

theorem decodeTableWord_eq_some_iff (nbits w : Nat) (i : Instr) :
    decodeTableWord nbits w = some i ↔ decode (tableWord nbits w) = .ok i := by
  unfold decodeTableWord
  cases decode (tableWord nbits w) <;> simp

/-- Settles O6: a step is its event, and a placed word is the next one. -/
theorem stepRunsDecodedCommand : Obligations.StepRunsDecodedCommand := by
  refine ⟨fun s w es i hs hw => ?_, fun s es hs => step_of_hostEvents hs, fun s nbits w i hw => ?_⟩
  · rw [step_of_hostEvents hs]
    exact runWord_of_decode hw _
  · rw [step_of_hostEvents (s := s.withFetchWord nbits w) rfl]
    exact runWord_of_decode ((decodeTableWord_eq_some_iff nbits w i).1 hw) s

end Sys2Proof.Machine
end

section
/-! The command word (30_encoding.md): the words that decode to a command are those whose used bits are its encoding.
The round trip (R75), the well-formed words and the reserved bits (R73) follow from that; the opcode map (R72) follows
from reading a command's operands in a word of its opcode. -/

namespace Sys2Proof

/-! ## Masking a word field by field (R71) -/

theorem fieldOpc_and (v w : Command) : fieldOpc (v &&& w) = fieldOpc v &&& fieldOpc w := BitVec.extractLsb'_and

theorem fieldA_and (v w : Command) : fieldA (v &&& w) = fieldA v &&& fieldA w := BitVec.extractLsb'_and

theorem fieldH_and (v w : Command) : fieldH (v &&& w) = fieldH v &&& fieldH w := BitVec.extractLsb'_and

theorem fieldL_and (v w : Command) : fieldL (v &&& w) = fieldL v &&& fieldL w := BitVec.extractLsb'_and

theorem and_assemble (w : Command) (o a : Byte) (h l : Half) :
    w &&& assemble o a h l = assemble (fieldOpc w &&& o) (fieldA w &&& a) (fieldH w &&& h) (fieldL w &&& l) := by
  rw [← assemble_fields (w &&& assemble o a h l)]
  simp only [fieldOpc_and, fieldA_and, fieldH_and, fieldL_and, fieldOpc_assemble, fieldA_assemble, fieldH_assemble,
    fieldL_assemble]

/-- Assembled words are equal exactly when their fields are. -/
theorem assemble_inj {o a o' a' : Byte} {h l h' l' : Half} :
    assemble o a h l = assemble o' a' h' l' ↔ o = o' ∧ a = a' ∧ h = h' ∧ l = l' := by
  constructor
  · intro e
    exact ⟨by simpa using congrArg fieldOpc e, by simpa using congrArg fieldA e,
      by simpa using congrArg fieldH e, by simpa using congrArg fieldL e⟩
  · rintro ⟨rfl, rfl, rfl, rfl⟩
    rfl

/-- The low byte of field L is field B (R71). -/
theorem fieldL_and_lowByte (w : Command) : fieldL w &&& 0xFF#16 = (fieldB w).setWidth 16 := by
  have hlow : (fieldL w).toNat &&& 0xFF = (fieldL w).toNat % 2 ^ 8 := Nat.and_two_pow_sub_one_eq_mod _ 8
  apply BitVec.eq_of_toNat_eq
  rw [BitVec.toNat_and, BitVec.toNat_ofNat, Nat.mod_eq_of_lt (by decide), hlow, fieldL_eq, fieldB_eq]
  simp only [BitVec.toNat_setWidth]
  omega

theorem fieldL_and_lowByte_eq_iff (w : Command) (b : Byte) :
    fieldL w &&& 0xFF#16 = b.setWidth 16 ↔ fieldB w = b := by
  rw [fieldL_and_lowByte]
  constructor
  · intro h
    simpa using congrArg (BitVec.setWidth 8) h
  · rintro rfl
    rfl

/-! ## Reading the operands of a command (R72) -/

/-- The command of `i`'s kind whose operands stand in the word `w`. -/
def withOperandsOf (w : Command) : Instr → Instr
  | .crcByte _ => .crcByte (fieldB w)
  | .buildRa _ => .buildRa (fieldA w)
  | .buildRd _ _ _ => .buildRd (fieldA w) (fieldH w) (fieldL w)
  | .buildWa _ _ => .buildWa (fieldA w) (fieldL w)
  | .rxPush _ => .rxPush (fieldB w)
  | .decode _ => .decode (fieldL w)
  | .buildRe _ => .buildRe (fieldA w)
  | i => i

/-- The opcode selects the kind of the command, and the word supplies its operands. -/
theorem decode_of_fieldOpc {w : Command} {i : Instr} (h : fieldOpc w = opcodeOf i) :
    decode w = .ok (withOperandsOf w i) := by
  unfold decode
  rw [h]
  cases i <;> rfl

theorem decode_eq_ok_iff (w : Command) (i : Instr) :
    decode w = .ok i ↔ fieldOpc w = opcodeOf i ∧ withOperandsOf w i = i := by
  constructor
  · intro h
    have hopc := opcodeOf_of_decode h
    exact ⟨hopc, Except.ok.inj ((decode_of_fieldOpc hopc).symm.trans h)⟩
  · rintro ⟨hopc, hi⟩
    rw [decode_of_fieldOpc hopc, hi]

/-! ## The used bits of a word (R73, R75) -/

/-- The used bits of a word are the encoding of `i` exactly when its opcode and its operands are `i`'s: each mask of
used bits is a mask of whole fields, or of the byte B. -/
theorem and_usedMask_eq_encode_iff (w : Command) (i : Instr) :
    w &&& usedMask i = encode i ↔ fieldOpc w = opcodeOf i ∧ withOperandsOf w i = i := by
  have hbyte (b : Byte) : b &&& 0xFF#8 = b := BitVec.and_allOnes
  have hhalf (v : Half) : v &&& 0xFFFF#16 = v := BitVec.and_allOnes
  cases i with
  | nop | crcInit | rxClear | validate | srst =>
    have hmask : (0xFF0000000000 : Command) = assemble 0xFF 0 0 0 := by decide
    simp [usedMask, hmask, encode, withOperandsOf, and_assemble, assemble_inj, hbyte]
  | crcByte b | rxPush b =>
    have hmask : (0xFF00000000FF : Command) = assemble 0xFF 0 0 0xFF := by decide
    simp [usedMask, hmask, encode, withOperandsOf, and_assemble, assemble_inj, hbyte, fieldL_and_lowByte_eq_iff]
  | buildRa a | buildRe a =>
    have hmask : (0xFFFF00000000 : Command) = assemble 0xFF 0xFF 0 0 := by decide
    simp [usedMask, hmask, encode, withOperandsOf, and_assemble, assemble_inj, hbyte]
  | decode start =>
    have hmask : (0xFF000000FFFF : Command) = assemble 0xFF 0 0 0xFFFF := by decide
    simp [usedMask, hmask, encode, withOperandsOf, and_assemble, assemble_inj, hbyte, hhalf]
  | buildWa a n =>
    have hmask : (0xFFFF0000FFFF : Command) = assemble 0xFF 0xFF 0 0xFFFF := by decide
    simp [usedMask, hmask, encode, withOperandsOf, and_assemble, assemble_inj, hbyte, hhalf]
  | buildRd a start count =>
    have hmask : (0xFFFFFFFFFFFF : Command) = assemble 0xFF 0xFF 0xFFFF 0xFFFF := by decide
    simp [usedMask, hmask, encode, withOperandsOf, and_assemble, assemble_inj, hbyte, hhalf]

/-- The words that decode to a command are those whose used bits are its encoding. -/
theorem decode_eq_ok_iff_and_usedMask (w : Command) (i : Instr) :
    decode w = .ok i ↔ w &&& usedMask i = encode i :=
  (decode_eq_ok_iff w i).trans (and_usedMask_eq_encode_iff w i).symm

theorem and_not_eq_zero_iff {n : Nat} (x u : BitVec n) : x &&& ~~~u = 0#n ↔ x &&& u = x := by
  simp only [BitVec.eq_of_getElem_eq_iff, BitVec.getElem_and, BitVec.getElem_not, BitVec.getElem_zero]
  exact forall₂_congr fun k hk => by cases x[k] <;> simp

/-- A word is well formed exactly when its used bits are the whole word. -/
theorem wellFormedWord_iff (i : Instr) (w : Command) : wellFormedWord i w = true ↔ w &&& usedMask i = w := by
  rw [wellFormedWord, beq_iff_eq, reservedMask]
  exact and_not_eq_zero_iff w (usedMask i)

theorem wellFormedWord_encode (i : Instr) : wellFormedWord i (encode i) = true := by
  cases i with
  | nop => exact Laws.Encoding.nop.2
  | crcInit => exact Laws.Encoding.crcInit.2
  | crcByte b => exact (Laws.Encoding.crcByte b).2
  | buildRa a => exact (Laws.Encoding.buildRa a).2
  | buildRd a start count => exact (Laws.Encoding.buildRd a start count).2
  | buildWa a n => exact (Laws.Encoding.buildWa a n).2
  | rxClear => exact Laws.Encoding.rxClear.2
  | rxPush b => exact (Laws.Encoding.rxPush b).2
  | validate => exact Laws.Encoding.validate.2
  | decode start => exact (Laws.Encoding.decode start).2
  | buildRe a => exact (Laws.Encoding.buildRe a).2
  | srst => exact Laws.Encoding.srst.2

/-- Settles O1: the assembled word is well formed, so its used bits are itself. -/
theorem decodeEncodeAgree : Obligations.DecodeEncodeAgree := fun i =>
  (decode_eq_ok_iff_and_usedMask _ i).2 ((wellFormedWord_iff i _).1 (wellFormedWord_encode i))

/-- Settles O2: the used bits of a word that decodes are the encoding, and those of a well-formed word the word. -/
theorem wellFormedWordsAreEncodings : Obligations.WellFormedWordsAreEncodings := by
  intro w i h
  rw [wellFormedWord_iff, (decode_eq_ok_iff_and_usedMask w i).1 h]

/-! ## The reserved bits (R73) -/

/-- Changing reserved bits leaves the used bits. -/
theorem xor_reserved_and_usedMask (w m : Command) (i : Instr) :
    (w ^^^ (m &&& reservedMask i)) &&& usedMask i = w &&& usedMask i := by
  ext k hk
  simp only [reservedMask, BitVec.getElem_and, BitVec.getElem_xor, BitVec.getElem_not]
  cases (usedMask i)[k] <;> simp

theorem decode_xor_reserved {w : Command} {i : Instr} (h : decode w = .ok i) (m : Command) :
    decode (w ^^^ (m &&& reservedMask i)) = .ok i := by
  rw [decode_eq_ok_iff_and_usedMask] at h ⊢
  rw [xor_reserved_and_usedMask, h]

/-- OPC is never reserved. -/
theorem reservedMask_and_opc (i : Instr) : reservedMask i &&& 0xFF0000000000#48 = 0#48 := by
  cases i <;> simp [reservedMask, usedMask]

/-- A command whose one operand is B reserves every bit between B and OPC. -/
theorem reservedMask_of_usedMask_opc_b {i : Instr} (h : usedMask i = 0xFF00000000FF) :
    reservedMask i = 0x00FFFFFFFF00#48 := by
  rw [reservedMask, h]
  decide

end Sys2Proof

namespace Sys2Proof.Machine

/-- A word issued next runs as the command it decodes to. -/
theorem step_issueNext {w : Command} {i : Instr} (h : decode w = .ok i) (s : State) :
    step (issueNext w s) = exec i s :=
  stepRunsDecodedCommand.1 (issueNext w s) w s.hostEvents i rfl h

/-- Settles O3: a word with its reserved bits changed decodes alike, and the step runs what it decodes to. -/
theorem reservedBitsIgnored : Obligations.ReservedBitsIgnored := by
  refine ⟨fun w m i h => ?_, fun w i h => ?_, reservedMask_and_opc,
    fun b => ⟨reservedMask_of_usedMask_opc_b rfl, reservedMask_of_usedMask_opc_b rfl⟩⟩
  · have hm := decode_xor_reserved h m
    exact ⟨hm, fun s => by rw [step_issueNext hm, step_issueNext h]⟩
  · rw [← fieldOpc_eq]
    exact opcodeOf_of_decode h

/-! ## The opcode map (R72, R74) -/

theorem decodes_opcodeOf (i : Instr) {f : Command → Instr} (hf : ∀ w, withOperandsOf w i = f w) :
    Decodes (opcodeOf i) f := by
  intro w h
  rw [decode_of_fieldOpc ((fieldOpc_eq w).trans h), hf]

theorem opcodeOf_mem_definedOpcodes (i : Instr) : opcodeOf i ∈ definedOpcodes := by
  cases i <;> simp [opcodeOf, definedOpcodes]

/-- The decoder rejects a word by its own opcode (R74). -/
theorem eq_illegalOpcode_of_decode {w : Command} {e : DecodeReject} (h : decode w = .error e) :
    e = .illegalOpcode (fieldOpc w) := by
  unfold decode at h
  split at h <;> cases h
  rfl

theorem decode_of_not_mem_definedOpcodes {w : Command} (h : fieldOpc w ∉ definedOpcodes) :
    decode w = .error (.illegalOpcode (fieldOpc w)) := by
  cases hd : decode w with
  | ok i => exact absurd (opcodeOf_of_decode hd ▸ opcodeOf_mem_definedOpcodes i) h
  | error e => rw [eq_illegalOpcode_of_decode hd]

/-- Byte 1 of an accepted frame is the opcode of the command. -/
theorem opcode_of_acceptedPrefix {i : Instr} {p : List Byte} (h : acceptedPrefix i = some p) :
    p[1]? = some (opcodeOf i) := by
  cases i with
  | buildRa | buildRd | buildRe => cases h; rfl
  | buildWa a n =>
    simp only [acceptedPrefix, Option.ite_none_right_eq_some, Option.some.injEq] at h
    simp [← h.2, opcodeOf]
  | nop | crcInit | crcByte | rxClear | rxPush | validate | decode | srst => cases h

theorem exec_writes_opcode_of_acceptedPrefix {i : Instr} {p : List Byte} (h : acceptedPrefix i = some p)
    (s : State) : ∃ t, exec i s = .next t ∧ t.txbuf[1] = opcodeOf i := by
  obtain ⟨op, a, e, w, he⟩ := exec_of_acceptedPrefix h
  obtain ⟨hlt, hopc⟩ := List.getElem?_eq_some_iff.1 (opcode_of_acceptedPrefix h)
  refine ⟨_, he s, ?_⟩
  calc (beginExchange op a p e w s).txbuf[1] = byteAt (buildFrame p) 1 := txImage_get (buildFrame p) 1
    _ = opcodeOf i := by simp [byteAt, buildFrame, List.getElem_append_left hlt, hopc]

/-- Settles O4: each row by its opcode and the fields it reads, every other opcode by the decoder's rejection, and the
frames by their leading bytes. -/
theorem opcodeMapComplete : Obligations.OpcodeMapComplete := by
  have hreject (w : Command) (h : (w >>> 40).setWidth 8 ∉ definedOpcodes) :
      decode w = .error (.illegalOpcode ((w >>> 40).setWidth 8)) := by
    rw [← fieldOpc_eq] at h ⊢
    exact decode_of_not_mem_definedOpcodes h
  refine ⟨decodes_opcodeOf .nop ?_, decodes_opcodeOf .crcInit ?_, decodes_opcodeOf (.crcByte 0) ?_,
    decodes_opcodeOf (.buildRa 0) ?_, decodes_opcodeOf (.buildRd 0 0 0) ?_, decodes_opcodeOf (.buildWa 0 0) ?_,
    decodes_opcodeOf .rxClear ?_, decodes_opcodeOf (.rxPush 0) ?_, decodes_opcodeOf .validate ?_,
    decodes_opcodeOf (.decode 0) ?_, decodes_opcodeOf (.buildRe 0) ?_, decodes_opcodeOf .srst ?_, hreject,
    fun _ _ s h => exec_writes_opcode_of_acceptedPrefix h s⟩ <;>
    intro w <;> simp only [withOperandsOf, fieldA_eq, fieldB_eq, fieldH_eq, fieldL_eq]

/-- Settles O5: the decoder evaluated on each word. -/
theorem knownWordsDecode : Obligations.KnownWordsDecode := by
  unfold Obligations.KnownWordsDecode
  decide

end Sys2Proof.Machine
end

section
/-! The CRC (40_crc.md): the bits of one step (R100), the fold over a sequence (R101), the residue of a frame that
carries its own CRC (R106), and the two commands that write the accumulator (R103, R104). -/

namespace Sys2Proof.Machine

/-! ## The halves of a register (R11) -/

theorem lo8_eq (v : Half) : lo8 v = v.setWidth 8 := rfl

theorem hi8_eq (v : Half) : hi8 v = (v >>> 8).setWidth 8 := rfl

/-! ## One step (R100) -/

/-- An iteration shifts right with 0 entering at the top, and XORs the polynomial in under bit 0. -/
theorem crcShift_getLsbD (r : Half) (i : Nat) : (crcShift r).getLsbD i =
    (r.getLsbD (i + 1) ^^ (r.getLsbD 0 && (0xA001#16).getLsbD i)) := by
  have hshift : (r >>> 1).getLsbD i = r.getLsbD (i + 1) := by rw [BitVec.getLsbD_ushiftRight, Nat.add_comm]
  unfold crcShift
  split
  · next h => rw [BitVec.getLsbD_xor, hshift, h, Bool.true_and]
  · next h => rw [hshift, eq_false_of_ne_true h, Bool.false_and, Bool.xor_false]

theorem crcShifts_eq_iterate (n : Nat) (r : Half) : crcShifts n r = crcShift^[n] r := by
  induction n generalizing r with
  | zero => rfl
  | succ n ih => exact ih (crcShift r)

/-- Settles O12: the bits of an iteration, where bit 16 is no bit of the register, and the iterations as a power. -/
theorem crcStepShiftsAndXors : Obligations.CrcStepShiftsAndXors := by
  refine ⟨fun r i hi => ?_, fun c b => crcShifts_eq_iterate 8 _⟩
  rw [crcShift_getLsbD]
  by_cases h : i < 15
  · simp only [h, decide_true, Bool.true_and]
  · have htop : r.getLsbD (i + 1) = false := BitVec.getLsbD_of_ge r (i + 1) (by omega)
    rw [htop, Bool.and_false]

/-! ## The residue (R106) -/

theorem crcShift_of_bit_zero {r : Half} (h : r.getLsbD 0 = false) : crcShift r = r >>> 1 := by
  rw [crcShift, h]
  rfl

/-- While the bits that fall out are 0, no polynomial enters: the iterations are one logical shift. -/
theorem crcShifts_of_low_bits_zero {n : Nat} {r : Half} (h : ∀ i < n, r.getLsbD i = false) :
    crcShifts n r = r >>> n := by
  induction n generalizing r with
  | zero => exact r.ushiftRight_zero.symm
  | succ n ih =>
    have hlow : ∀ i < n, (r >>> 1).getLsbD i = false := fun i hi => by
      rw [BitVec.getLsbD_ushiftRight]
      exact h (1 + i) (by omega)
    calc crcShifts (n + 1) r = crcShifts n (r >>> 1) := by
          rw [crcShifts, crcShift_of_bit_zero (h 0 n.succ_pos)]
      _ = r >>> 1 >>> n := ih hlow
      _ = r >>> (n + 1) := by rw [← BitVec.shiftRight_add, Nat.add_comm]

/-- Folding a register's own low byte clears it, so the step only moves the high byte down. -/
theorem crc16Step_lo8 (c : Half) : crc16Step c (lo8 c) = (hi8 c).setWidth 16 := by
  have hlow : ∀ i < 8, (c ^^^ (lo8 c).setWidth 16).getLsbD i = false := fun i hi => by
    simp [lo8_eq, hi, show i < 16 by omega, -BitVec.getLsbD_eq_getElem]
  rw [crc16Step, crcShifts_of_low_bits_zero hlow]
  ext i hi
  have hhigh : c.getLsbD (8 + i) = true → i < 8 := fun h => by
    have := BitVec.lt_of_getLsbD h
    omega
  simpa [lo8_eq, hi8_eq] using hhigh

/-- A step of a register by its own value shifts only zeros. -/
theorem crc16Step_setWidth_self (b : Byte) : crc16Step (b.setWidth 16) b = 0#16 := by
  rw [crc16Step, BitVec.xor_self, crcShifts_of_low_bits_zero fun i _ => BitVec.getLsbD_zero]
  rfl

/-- Settles O15: the low byte of the CRC leaves its high byte in the register, and the high byte then clears it. -/
theorem crcResidueIsZero : Obligations.CrcResidueIsZero := by
  intro p
  calc crc16 (p ++ [lo8 (crc16 p), hi8 (crc16 p)])
      = crc16Step (crc16Step (crc16 p) (lo8 (crc16 p))) (hi8 (crc16 p)) := crc16_append p _
    _ = crc16Step ((hi8 (crc16 p)).setWidth 16) (hi8 (crc16 p)) := by rw [crc16Step_lo8]
    _ = 0x0000#16 := crc16Step_setWidth_self _

/-! ## The fold and the frame (R101, R102, R120) -/

/-- Settles O13: each part is a rule of `crc16`, `crcBytes` or `buildFrame`. -/
theorem crc16FoldsAndFramesAppendIt : Obligations.Crc16FoldsAndFramesAppendIt := by
  refine ⟨crc16_nil, fun p b => crc16_append p [b], fun c => ?_, fun p => ⟨rfl, buildFrame_length p⟩⟩
  rw [crcBytes, lo8_eq, hi8_eq]

/-- Settles O14: the functions evaluated on each sequence. -/
theorem crc16KnownValues : Obligations.Crc16KnownValues := by
  simp [Obligations.Crc16KnownValues, crc16, crcInitial, crc16Step, crcShifts, crcShift, crcBytes, lo8_eq, hi8_eq]

/-! ## The commands (R103, R104) -/

/-- Settles O16: the opcode map, and the update of the accumulator alone. -/
theorem crcInitCompletes : Obligations.CrcInitCompletes :=
  ⟨decodes_opcodeOf .crcInit fun _ => rfl, fun s =>
    ⟨{ s with crc := crcInitial }, rfl, rfl, rfl, rfl, fun _ => rfl, rfl⟩⟩

/-- A sequence of CRC_BYTE folds its bytes from the accumulator it finds. -/
theorem execSeq_crcByte (bs : List Byte) (s : State) :
    execSeq (bs.map .crcByte) s = .next { s with crc := bs.foldl crc16Step s.crc } := by
  induction bs generalizing s with
  | nil => rfl
  | cons b bs ih => exact ih { s with crc := crc16Step s.crc b }

/-- Settles O17: the opcode map, the update of the accumulator alone, and the fold, which CRC_INIT makes start from the
initial value. -/
theorem crcByteCompletes : Obligations.CrcByteCompletes := by
  refine ⟨decodes_opcodeOf (.crcByte 0) fun w => congrArg Instr.crcByte (fieldB_eq w), fun s b =>
    ⟨{ s with crc := crc16Step s.crc b }, rfl, rfl, rfl, fun _ => rfl⟩, fun s bs => ?_,
    fun s bs => execSeq_crcByte bs s, by decide, by decide⟩
  exact execSeq_crcByte bs { s with crc := crcInitial }

end Sys2Proof.Machine
end

section
/-! The build commands (41_frame_build.md): which new addresses are valid (R124), the effect and the example of each
command (R122, R123, R126, R127), and what an earlier exchange has no influence on (R121, R125). -/

namespace Sys2Proof.Machine

/-! ## The new address (R124) -/

/-- The check as numbers: the 16-bit N whole, the 8-bit A zero-extended. -/
theorem validNewAddr_iff (n : Half) (a : Byte) :
    validNewAddr n a = true ↔
      0x01 ≤ n.toNat ∧ n.toNat ≤ 0xF7 ∧ n.toNat ≠ a.toNat ∧ n.toNat ≠ 0xF8 := by
  have hzext : n = a.setWidth 16 ↔ n.toNat = a.toNat := by
    have ha : a.toNat % 2 ^ 16 = a.toNat := Nat.mod_eq_of_lt (by omega)
    rw [← BitVec.toNat_inj, BitVec.toNat_setWidth, ha]
  have hgeneral : n = 0x00F8#16 ↔ n.toNat = 0xF8 := by rw [← BitVec.toNat_inj]; rfl
  simp [validNewAddr, BitVec.le_def, hzext, hgeneral, and_assoc]

/-- Settles O22: 0xF8 lies above the range. -/
theorem newAddressCheck : Obligations.NewAddressCheck := by
  intro n a
  rw [validNewAddr_iff]
  omega

theorem hi8_toNat (v : Half) : (hi8 v).toNat = v.toNat / 256 := by
  rw [hi8_eq, BitVec.toNat_setWidth, BitVec.toNat_ushiftRight, Nat.shiftRight_eq_div_pow]
  omega

/-- A valid new address fits in a byte. -/
theorem hi8_of_validNewAddr {n : Half} {a : Byte} (h : validNewAddr n a = true) : hi8 n = 0x00#8 := by
  obtain ⟨-, hle, -, -⟩ := (validNewAddr_iff n a).1 h
  apply BitVec.eq_of_toNat_eq
  rw [hi8_toNat]
  exact Nat.div_eq_of_lt (by omega)

/-! ## The effect of each command -/

/-- While an exchange is active the push limit is its expected length, cut at RX_CAP (R151). -/
theorem pushLimit_beginExchange {op : CtxOp} (h : op ≠ .none) (a : Byte) (p : List Byte) (e : BitVec 18)
    (w : Half) (s : State) : pushLimit (beginExchange op a p e w s) = min e.toNat s.params.rxCap :=
  if_neg h

/-- TXBUF after an exchange has begun, by the CRC of the frame's leading bytes. -/
theorem txbuf_beginExchange_of_crc {p : List Byte} {c : Half} (h : crc16 p = c) (op : CtxOp) (a : Byte)
    (e : BitVec 18) (w : Half) (s : State) :
    (beginExchange op a p e w s).txbuf = txImage (p ++ crcBytes c) := by
  rw [beginExchange_txbuf, buildFrame, h]

/-- The CRCs of the example frames of R122, R123, R126 and R127. -/
theorem crc16_example_requests :
    crc16 (prefixRd 0xF8 0 10) = 0x6464#16 ∧ crc16 (prefixWa 0xF8 0x01) = 0xA3FD#16 ∧
    crc16 (prefixRa 0xF8) = 0xA331#16 ∧ crc16 (prefixRe 0xF8) = 0x41C2#16 := by
  simp [crc16, crcInitial, crc16Step, crcShifts, crcShift, prefixRd, prefixWa, prefixRa, prefixRe, functionCode,
    lo8_eq, hi8_eq]

/-- Settles O18: the effect of `Begin`, and the push limit as the lesser of the expected length and RX_CAP. -/
theorem buildRdCompletes : Obligations.BuildRdCompletes := by
  refine ⟨decodes_opcodeOf (.buildRd 0 0 0) fun w => ?_, fun s a start count => ⟨_, rfl, ?_, fun hcut => ?_⟩,
    fun s => ⟨_, rfl, ?_, rfl, rfl, rfl⟩⟩
  · simp only [withOperandsOf, fieldA_eq, fieldH_eq, fieldL_eq]
  · rw [← expectedRd_toNat]
    exact beginExchange_effect s .rd a (prefixRd a start count) _ start (by simp [prefixRd])
  · rw [pushLimit_beginExchange (by decide), expectedRd_toNat]
    omega
  · obtain ⟨hcrc, -, -, -⟩ := crc16_example_requests
    exact txbuf_beginExchange_of_crc hcrc ..

/-- Of all commands only a VALIDATE that accepts sets ADDR_VALID (R28, R157). -/
theorem addrValid_set_by_accepted_validate {i : Instr} {s t : State} (h : exec i s = .next t)
    (hbefore : s.status.addrValid = false) (hafter : t.status.addrValid = true) :
    i = .validate ∧ t.status.accept = true := by
  cases (exec_next_iff i s t).1 h with
  | validate r =>
    refine ⟨rfl, ?_⟩
    by_cases hop : s.ctx.op = .ra
    · rw [(validateResponse_of_ra r hop).1, Bool.and_eq_true] at hafter
      rw [validateResponse_status]
      exact hafter.1
    · rw [(validateResponse_of_not_ra r hop).1, hbefore] at hafter
      cases hafter
  | begin | reject | srst => cases hafter
  | nop | crcInit | crcByte | rxClear | append | drop | decode => cases hbefore.symm.trans hafter

/-- Settles O19: the effect of `Begin`; ADDR_VALID by the effect of every command. -/
theorem buildRaCompletes : Obligations.BuildRaCompletes := by
  refine ⟨decodes_opcodeOf (.buildRa 0) fun w => congrArg Instr.buildRa (fieldA_eq w),
    fun s a => ⟨_, rfl, beginExchange_effect s .ra a (prefixRa a) expectedRa 0 (by simp [prefixRa])⟩,
    fun s => ⟨_, rfl, ?_, rfl⟩, fun _ _ _ => addrValid_set_by_accepted_validate⟩
  obtain ⟨-, -, hcrc, -⟩ := crc16_example_requests
  exact txbuf_beginExchange_of_crc hcrc ..

/-- Settles O20: the effect of `Begin` with two leading bytes. -/
theorem buildReCompletes : Obligations.BuildReCompletes := by
  refine ⟨decodes_opcodeOf (.buildRe 0) fun w => congrArg Instr.buildRe (fieldA_eq w),
    fun s a => ⟨_, rfl, beginExchange_effect s .re a (prefixRe a) expectedRe 0 (by simp [prefixRe])⟩,
    fun s => ⟨_, rfl, ?_, rfl, rfl⟩⟩
  obtain ⟨-, -, -, hcrc⟩ := crc16_example_requests
  exact txbuf_beginExchange_of_crc hcrc ..

theorem exec_buildWa_of_valid {n : Half} {a : Byte} (h : validNewAddr n a = true) (s : State) :
    exec (.buildWa a n) s = .next (beginExchange .wa a (prefixWa a n) expectedWa 0 s) := if_pos h

theorem exec_buildWa_of_invalid {n : Half} {a : Byte} (h : validNewAddr n a = false) (s : State) :
    exec (.buildWa a n) s = .next (rejectWa s) := if_neg (by rw [h]; decide)

/-- Settles O21: the effect of `Begin` for a valid new address, of `RejectWA` for any other. -/
theorem buildWaCompletes : Obligations.BuildWaCompletes := by
  refine ⟨decodes_opcodeOf (.buildWa 0 0) fun w => ?_, fun s a n => ?_, fun s =>
    ⟨_, exec_buildWa_of_valid (by decide) s, ?_, rfl, rfl⟩⟩
  · simp only [withOperandsOf, fieldA_eq, fieldL_eq]
  · cases hv : validNewAddr n a with
    | true =>
      have heffect := beginExchange_effect s .wa a (prefixWa a n) expectedWa 0 (by simp [prefixWa])
      exact ⟨_, exec_buildWa_of_valid hv s, fun _ => ⟨heffect, hi8_of_validNewAddr hv⟩, nofun⟩
    | false => exact ⟨_, exec_buildWa_of_invalid hv s, nofun, fun _ => ⟨rejectWa_effect s, rfl⟩⟩
  · obtain ⟨-, hcrc, -, -⟩ := crc16_example_requests
    exact txbuf_beginExchange_of_crc hcrc ..

/-! ## The exchange before a build (R121, R125, R233) -/

/-- Beginning an exchange writes over everything that a rejection writes. -/
theorem beginExchange_rejectWa (op : CtxOp) (a : Byte) (p : List Byte) (e : BitVec 18) (w : Half) (s : State) :
    beginExchange op a p e w (rejectWa s) = beginExchange op a p e w s := rfl

/-- Settles O25: a rejection leaves nothing of the earlier exchange, and an accepted build writes over the rest. -/
theorem buildForgetsEarlierExchange : Obligations.BuildForgetsEarlierExchange := by
  intro i s s' hbuild hparams hcrc hrxbuf hsnap halarm herrIll hevents
  have hreject : rejectWa s = rejectWa s' := by
    simp only [rejectWa, discardExchange, raise, hparams, hcrc, hrxbuf, hsnap, halarm, herrIll, hevents]
  rcases exec_of_isBuild hbuild with ⟨op, a, p, e, w, -, he⟩ | ⟨-, he⟩
  · rw [he, he, ← beginExchange_rejectWa, hreject, beginExchange_rejectWa]
  · rw [he, he, hreject]

end Sys2Proof.Machine
end

section
/-! Exchanges: a frame splits with its CRC right (R128, R153), what pushing a response into an empty buffer and
validating it does (R151, R152), and the exchanges that follow from it (R125, R157, R158). -/

namespace Sys2Proof.Machine

/-! ## The split of a built frame (R120, R153) -/

/-- Split recovers the echoed bytes and the payload length of a frame, and finds its CRC right. -/
theorem splitFrame_buildFrame {p : List Byte} (h : 2 ≤ p.length) :
    splitFrame (buildFrame p) =
      ⟨false, byteAt p 0, byteAt p 1, p.length - 3, crc16 p, crc16 p, true⟩ := by
  have hbody : (buildFrame p).take p.length = p := List.take_left' rfl
  have hcrc : be16 (byteAt (buildFrame p) (p.length + 1)) (byteAt (buildFrame p) p.length) = crc16 p := by
    simp [byteAt, buildFrame, crcBytes]
  have hhead (i : Nat) (hi : i < 2) : byteAt (buildFrame p) i = byteAt p i := by
    simp [byteAt, buildFrame, List.getElem?_append_left (show i < p.length by omega)]
  rw [splitFrame_long (by rw [buildFrame_length]; omega)]
  simp [hbody, hcrc, hhead]

/-- The payload of a response follows its three leading bytes, before the CRC. -/
theorem bytesFrom_buildFrame (a fc b2 : Byte) (payload : List Byte) :
    bytesFrom (buildFrame (a :: fc :: b2 :: payload)) 3 (3 + payload.length) = payload := by
  simp [bytesFrom, buildFrame]

/-! ## A response that echoes the request (R154, R155, R156)

A built frame whose first two bytes are the expected address and function code passes every check. -/

theorem acceptOf_of_checks (strict : Bool) {op : CtxOp} (h : op ≠ .none) :
    acceptOf strict op false true true true = true := by
  cases op with
  | none => exact absurd rfl h
  | rd | wa | ra | re => rfl

theorem causeOf_of_checks (strict : Bool) {op : CtxOp} {plen : Nat} (h : op ≠ .none) (hra : op = .ra → 2 ≤ plen) :
    causeOf strict op false true true true plen = .none := by
  simpa [causeOf, h, Nat.lt_iff_add_one_le] using hra

section
variable {s : State} {op : CtxOp} {a fc : Byte} {e : BitVec 18} {w : Half} (hctx : s.ctx = ⟨op, a, fc, e, w⟩)
  (rest : List Byte)
include hctx

theorem fcEcho_buildFrame : fcEcho s (splitFrame (buildFrame (a :: fc :: rest))) = true := by
  rw [splitFrame_buildFrame (by simp)]
  simp [fcEcho, byteAt, hctx]

theorem addrEcho_buildFrame : addrEcho s (splitFrame (buildFrame (a :: fc :: rest))) = true := by
  rw [splitFrame_buildFrame (by simp)]
  simp [addrEcho, byteAt, hctx]

theorem accepts_buildFrame (hop : op ≠ .none) :
    accepts s (splitFrame (buildFrame (a :: fc :: rest))) = true := by
  rw [accepts, fcEcho_buildFrame hctx, addrEcho_buildFrame hctx, splitFrame_buildFrame (by simp), hctx]
  exact acceptOf_of_checks _ hop

/-- VALIDATE accepts such a response, with CAUSE NONE where under RA it carries two payload bytes. -/
theorem status_validateResponse_buildFrame (hop : op ≠ .none) (hra : op = .ra → 3 ≤ rest.length) :
    (validateResponse (buildFrame (a :: fc :: rest)) s).status.accept = true ∧
    (validateResponse (buildFrame (a :: fc :: rest)) s).status.crcok = true ∧
    (validateResponse (buildFrame (a :: fc :: rest)) s).status.cause = .none := by
  have hplen (h : op = .ra) : 2 ≤ (a :: fc :: rest).length - 3 := by
    have := hra h
    simp only [List.length_cons]
    omega
  rw [validateResponse_status, recordVerdict_status, fcEcho_buildFrame hctx, addrEcho_buildFrame hctx,
    accepts_buildFrame hctx rest hop, splitFrame_buildFrame (by simp), hctx]
  exact ⟨rfl, rfl, causeOf_of_checks _ hop hplen⟩

end

/-! ## Pushing a response and validating it (R151, R152) -/

theorem execSeq_append_of_next {is : List Instr} {s t : State} (h : execSeq is s = .next t) (js : List Instr) :
    execSeq (is ++ js) s = execSeq js t := by
  rw [execSeq_append, h]

/-- The pushes change nothing but RXBUF, RXLEN and RX_DROP, and VALIDATE sees the bytes below the push limit. -/
theorem execSeq_push_validate (bs : List Byte) {s : State} (h : s.rxlen = 0) :
    ∃ m n, execSeq (bs.map .rxPush ++ [.validate]) s = .next (validateResponse (bs.take (pushLimit s))
      { s with
        rxbuf := m
        rxlen := n
        status := { s.status with rxDrop := s.status.rxDrop || decide (pushLimit s < bs.length) } }) := by
  have hempty : rxBytes s = .ok [] := by rw [rxBytes, h]; rfl
  obtain ⟨t, hrun, hbytes, -, hdrop, hframe⟩ := execSeq_rxPush bs hempty (by omega)
  rw [h, Nat.zero_add] at hdrop
  have ht : t = { s with
      rxbuf := t.rxbuf
      rxlen := t.rxlen
      status := { s.status with rxDrop := s.status.rxDrop || decide (pushLimit s < bs.length) } } := by
    rw [← hdrop]
    exact congrArg (fun u : State =>
      { u with rxbuf := t.rxbuf, rxlen := t.rxlen, status := { u.status with rxDrop := t.status.rxDrop } }) hframe
  refine ⟨t.rxbuf, t.rxlen, ?_⟩
  rw [← ht, execSeq_append_of_next hrun, execSeq, exec_validate hbytes]
  rfl

/-- A response that the push limit allows arrives whole, and RX_DROP stays. -/
theorem execSeq_push_validate_of_le {bs : List Byte} {s : State} (h : s.rxlen = 0) (hfit : bs.length ≤ pushLimit s) :
    ∃ m n, execSeq (bs.map .rxPush ++ [.validate]) s =
      .next (validateResponse bs { s with rxbuf := m, rxlen := n }) := by
  obtain ⟨m, n, hrun⟩ := execSeq_push_validate bs h
  rw [List.take_of_length_le hfit, decide_eq_false (Nat.not_lt.2 hfit), Bool.or_false] at hrun
  exact ⟨m, n, hrun⟩

/-! ## The exchanges -/

/-- Settles O23: the empty context that `RejectWA` leaves outlasts the pushes, and in it VALIDATE accepts nothing. -/
theorem rejectedBuildWaEffect : Obligations.RejectedBuildWaEffect := by
  refine ⟨fun s a n hv => ⟨_, exec_buildWa_of_invalid hv s, rejectWa_effect s, rfl, fun bs t' hrun => ?_⟩, rfl⟩
  obtain ⟨m, k, hvalidate⟩ := execSeq_push_validate bs (s := rejectWa s) rfl
  cases hvalidate.symm.trans hrun
  rw [validateResponse_status]
  rfl

/-- The frame of an accepted build has two leading bytes (BUILD_RE) or six. -/
theorem length_of_acceptedPrefix {i : Instr} {p : List Byte} (h : acceptedPrefix i = some p) :
    p.length = 2 ∨ p.length = 6 := by
  cases i with
  | buildRa | buildRd => cases h; exact .inr rfl
  | buildRe => cases h; exact .inl rfl
  | buildWa a n =>
    simp only [acceptedPrefix, Option.ite_none_right_eq_some, Option.some.injEq] at h
    exact .inr (h.2 ▸ rfl)
  | nop | crcInit | crcByte | rxClear | rxPush | validate | decode | srst => cases h

/-- Settles O24: the frame of `Begin`, the split of a frame, and its pushes. -/
theorem builtFramesValidate : Obligations.BuiltFramesValidate := by
  refine ⟨fun i p s hp => ?_, fun p h => ?_, fun p h => ?_, fun s p h hempty hfit => ?_⟩
  · obtain ⟨op, a, e, w, he⟩ := exec_of_acceptedPrefix hp
    refine ⟨_, he s, ?_, txFrame_beginExchange (acceptedPrefix_length_le hp) op a e w s⟩
    rw [beginExchange_txlen, buildFrame_length]
    rcases length_of_acceptedPrefix hp with hlen | hlen <;> simp [hlen]
  · simp [splitFrame_buildFrame h]
  · rw [splitFrame_nodata, buildFrame_length]
    exact decide_eq_true (by omega)
  · obtain ⟨m, n, hrun⟩ := execSeq_push_validate_of_le hempty ((buildFrame_length p).trans_le hfit)
    refine ⟨_, hrun, ?_⟩
    rw [validateResponse_status, recordVerdict_status, splitFrame_buildFrame h]
    exact ⟨rfl, rfl⟩

/-- After a build command, a response that the expected length and RX_CAP allow reaches VALIDATE whole, in the context
of the request. -/
theorem execSeq_build_push_validate {i : Instr} {op : CtxOp} {a : Byte} {p bs : List Byte} {e : BitVec 18} {w : Half}
    {s : State} (hbuild : exec i s = .next (beginExchange op a p e w s)) (hop : op ≠ .none)
    (hexp : bs.length ≤ e.toNat) (hcap : bs.length ≤ s.params.rxCap) :
    ∃ t, execSeq (i :: bs.map .rxPush ++ [.validate]) s = .next (validateResponse bs t) ∧
      t.ctx = ⟨op, a, functionCode op, e, w⟩ ∧ t.snap = s.snap ∧ t.status.rxDrop = false := by
  have hfit : bs.length ≤ pushLimit (beginExchange op a p e w s) := by
    rw [pushLimit_beginExchange hop]
    exact Nat.le_min.2 ⟨hexp, hcap⟩
  obtain ⟨m, n, hrun⟩ := execSeq_push_validate_of_le (beginExchange_rxlen ..) hfit
  refine ⟨{ beginExchange op a p e w s with rxbuf := m, rxlen := n }, ?_, rfl, rfl, rfl⟩
  rw [List.cons_append, execSeq, hbuild]
  exact hrun

/-- Settles O58: the response fills the expected length exactly, echoes the request, and carries the payload. -/
theorem readExchangeDecodesPayload : Obligations.ReadExchangeDecodesPayload := by
  intro s a b2 start count payload hlen hcap hmax
  have hframe : (buildFrame (a :: 0x04 :: b2 :: payload)).length = 2 * count.toNat + 5 := by simp [hlen]
  obtain ⟨t, hrun, hctx, -, hdrop⟩ := execSeq_build_push_validate (i := .buildRd a start count) rfl (by decide)
    (hframe.trans (expectedRd_toNat count).symm).le (hframe.trans_le hcap)
  obtain ⟨haccept, hcrcok, hcause⟩ := status_validateResponse_buildFrame hctx (b2 :: payload) (by decide) nofun
  have hplen : (splitFrame (buildFrame (a :: 0x04 :: b2 :: payload))).plen = payload.length := by simp
  obtain ⟨hsnap, halarm⟩ := validateResponse_of_read (buildFrame (a :: 0x04 :: b2 :: payload)) (s := t)
    ⟨by rw [hctx], accepts_buildFrame hctx _ (by decide)⟩
  rw [hplen, bytesFrom_buildFrame, hctx] at hsnap halarm
  refine ⟨_, hrun, haccept, hcrcok, hcause, ?_, ?_, hsnap, halarm⟩
  · rw [validateResponse_status]
    exact hdrop
  · rw [validateResponse_verdict, hplen, BitVec.toNat_ofNat]
    exact Nat.mod_eq_of_lt (by omega)

/-- Settles O59: the response has the expected seven bytes, echoes the request, and carries the address in two. -/
theorem addressExchangeLoadsAddress : Obligations.AddressExchangeLoadsAddress := by
  intro s a b2 n hparams
  have hframe : (buildFrame [a, 0x03, b2, hi8 n, lo8 n]).length = 7 := buildFrame_length _
  have hcap : 7 ≤ s.params.rxCap := le_trans (by decide) hparams.1
  obtain ⟨t, hrun, hctx, hsnap, -⟩ :=
    execSeq_build_push_validate (i := .buildRa a) rfl (by decide) hframe.le (hframe.trans_le hcap)
  obtain ⟨haccept, -, hcause⟩ :=
    status_validateResponse_buildFrame hctx [b2, hi8 n, lo8 n] (by decide) fun _ => le_rfl
  have hop : t.ctx.op = .ra := by rw [hctx]
  have hacc : accepts t (splitFrame (buildFrame [a, 0x03, b2, hi8 n, lo8 n])) = true :=
    accepts_buildFrame hctx _ (by decide)
  obtain ⟨hvalid, hresult⟩ := validateResponse_of_ra (buildFrame [a, 0x03, b2, hi8 n, lo8 n]) hop
  rw [hacc, splitFrame_plen, hframe] at hvalid
  rw [hvalid] at hresult
  refine ⟨_, hrun, haccept, hcause, hvalid, hresult.trans (be16_hi8_lo8 n), ?_⟩
  rw [(validateResponse_of_not_read _ (by simp [hop])).1, hsnap]

end Sys2Proof.Machine
end

section
/-! The receive commands (R150, R151), what Split returns (R153), and the checks on it as functions of the flags
(R155, R156). -/

namespace Sys2Proof.Machine

/-! ## RX_CLEAR and RX_PUSH (R150, R151) -/

/-- With nothing received, `RXBUF[0..RXLEN)` is empty, whatever RXBUF holds. -/
theorem rxBytes_of_rxlen_zero {s : State} (h : s.rxlen = 0) : rxBytes s = .ok [] := by
  rw [rxBytes, h]
  rfl

/-- Settles O26: the opcode map and the update; VALIDATE then splits a response of no bytes. -/
theorem rxClearCompletes : Obligations.RxClearCompletes := by
  refine ⟨decodes_opcodeOf .rxClear fun _ => rfl, fun s =>
    ⟨{ s with rxlen := 0, status := { s.status with rxDrop := false } }, rfl, rfl, rfl, rfl, fun _ => rfl,
      validateResponse [] _, exec_validate (rxBytes_of_rxlen_zero rfl), ?_⟩⟩
  rw [validateResponse_status]
  rfl

/-- At the push limit RX_PUSH drops its byte (R151). -/
theorem exec_rxPush_of_ge {s : State} (h : pushLimit s ≤ s.rxlen) (b : Byte) :
    exec (.rxPush b) s = .next { s with status := { s.status with rxDrop := true } } :=
  (exec_next_iff ..).2 (.drop b h)

/-- Pushing into an exchange that has just begun stores up to its expected length, cut at RX_CAP, and flags the rest. -/
theorem execSeq_build_push {i : Instr} {op : CtxOp} {a : Byte} {p : List Byte} {e : BitVec 18} {w : Half} {s : State}
    (hbuild : exec i s = .next (beginExchange op a p e w s)) (hop : op ≠ .none) (bs : List Byte) :
    ∃ t, execSeq (i :: bs.map .rxPush) s = .next t ∧
      t.rxlen = min bs.length (min e.toNat s.params.rxCap) ∧
      t.status.rxDrop = decide (min e.toNat s.params.rxCap < bs.length) := by
  obtain ⟨t, hrun, -, hlen, hdrop, -⟩ := execSeq_rxPush bs (s := beginExchange op a p e w s)
    (rxBytes_of_rxlen_zero rfl) (Nat.zero_le _)
  rw [pushLimit_beginExchange hop, beginExchange_rxlen, Nat.zero_add] at hlen hdrop
  refine ⟨t, ?_, hlen, hdrop⟩
  rw [execSeq, hbuild]
  exact hrun

/-- Settles O27: the two cases of RX_PUSH; the example's fifth byte is beyond the expected length 4. -/
theorem rxPushCompletes : Obligations.RxPushCompletes := by
  refine ⟨decodes_opcodeOf (.rxPush 0) fun w => congrArg Instr.rxPush (fieldB_eq w),
    fun s b => ⟨fun hlt => ?_, fun hge => ?_⟩, fun s hparams => ?_⟩
  · have hcap : s.rxlen < s.params.rxCap := Nat.lt_of_lt_of_le hlt (pushLimit_le s)
    exact ⟨_, exec_rxPush_of_lt hlt b, rfl, (rxByte_push hcap b _).trans (if_pos rfl),
      fun a ha => (rxByte_push hcap b a).trans (if_neg ha), rfl⟩
  · exact ⟨_, exec_rxPush_of_ge hge b, rfl, fun _ => rfl, rfl⟩
  · have hcap : 4 ≤ s.params.rxCap := le_trans (by decide) hparams.1
    have hlim : min expectedRe.toNat s.params.rxCap = 4 := Nat.min_eq_left hcap
    obtain ⟨t, hrun, hlen, hdrop⟩ :=
      execSeq_build_push (i := .buildRe 0xF8) (s := s) rfl (by decide) [0xF8, 0x42, 0xC2, 0x41, 0x00]
    rw [hlim] at hlen hdrop
    exact ⟨t, hrun, hlen, hdrop⟩

/-! ## Split (R153) -/

/-- The split of a response whose last two bytes are `lo` and `hi`: the others are what the CRC is computed over. -/
theorem splitFrame_append_crc {p : List Byte} (h : 2 ≤ p.length) (lo hi : Byte) :
    splitFrame (p ++ [lo, hi]) =
      ⟨false, byteAt p 0, byteAt p 1, p.length - 3, be16 hi lo, crc16 p, crc16 p == be16 hi lo⟩ := by
  have hbody : (p ++ [lo, hi]).take p.length = p := List.take_left' rfl
  have hlo : byteAt (p ++ [lo, hi]) p.length = lo := by simp [byteAt]
  have hhi : byteAt (p ++ [lo, hi]) (p.length + 1) = hi := by simp [byteAt]
  have hhead (i : Nat) (hi' : i < 2) : byteAt (p ++ [lo, hi]) i = byteAt p i := by
    simp [byteAt, List.getElem?_append_left (show i < p.length by omega)]
  rw [splitFrame_long (by simp; omega)]
  simp [hbody, hlo, hhi, hhead]

/-- The payload is what lies between byte 2 and the CRC; with no byte 2 it is empty. -/
theorem bytesFrom_payload (a fc lo hi : Byte) (mid : List Byte) :
    bytesFrom (a :: fc :: mid ++ [lo, hi]) 3 (3 + (mid.length - 1)) = mid.drop 1 := by
  cases mid with
  | nil => rfl
  | cons b2 payload => simp [bytesFrom]

/-- Settles O29: the split of a response with its last two bytes told apart. -/
theorem splitSeparatesResponse : Obligations.SplitSeparatesResponse := by
  refine ⟨fun r => splitFrame_short, fun a fc lo hi mid => ?_⟩
  have hplen : (a :: fc :: mid).length - 3 = mid.length - 1 := by simp only [List.length_cons]; omega
  have hsplit := splitFrame_append_crc (p := a :: fc :: mid) (by simp) lo hi
  rw [hplen] at hsplit
  have haddr : byteAt (a :: fc :: mid) 0 = a := rfl
  have hfc : byteAt (a :: fc :: mid) 1 = fc := rfl
  simp only [hsplit, haddr, hfc, bytesFrom_payload, beq_iff_eq, and_self]

/-! ## Acceptance and cause (R155, R156) -/

/-- Settles O32: each row of the table is a conjunction of flags. -/
theorem acceptanceTable : Obligations.AcceptanceTable := by
  intro strict nodata crcok fok aok
  simp [acceptOf, and_assoc]

/-- VALIDATE accepts exactly when the first five checks of R156 pass. -/
theorem acceptOf_iff (strict : Bool) (op : CtxOp) (nodata crcok fok aok : Bool) :
    acceptOf strict op nodata crcok fok aok = true ↔
      nodata = false ∧ op ≠ .none ∧ ¬((op ≠ .rd ∨ strict = true) ∧ crcok = false) ∧ fok = true ∧ aok = true := by
  obtain ⟨hnone, hrd, hwa, hra, hre⟩ := acceptanceTable strict nodata crcok fok aok
  cases op with
  | none => simp [hnone]
  | rd => rw [hrd]; cases crcok <;> simp [and_comm, and_left_comm]
  | wa => simp [hwa]
  | ra => simp [hra]
  | re => simp [hre]

/-- An accepted response leaves one of the causes that stand for no failure (0, 8, 9), a rejected one none of them. -/
theorem acceptOf_iff_causeCode (strict : Bool) (op : CtxOp) (nodata crcok fok aok : Bool) (plen : Nat) :
    acceptOf strict op nodata crcok fok aok = true ↔
      causeCode (causeOf strict op nodata crcok fok aok plen) ∈ [0#4, 8#4, 9#4] := by
  rw [acceptOf_iff, causeOf]
  split_ifs <;> simp_all [causeCode]

/-- Settles O33: the checks are walked in the order of the rule, each code at the check that reports it. -/
theorem causeFollowsCheckOrder : Obligations.CauseFollowsCheckOrder := by
  refine ⟨fun strict op nodata crcok fok aok plen => ?_, fun s r hr => ⟨_, exec_validate hr, ?_⟩⟩
  · rw [causeOf]
    split_ifs with hdata hctx hcrc hfc haddr hadv hshort
    · simp [causeCode, hdata]
    · simp [causeCode, hdata, hctx]
    · obtain ⟨hrequired | hrequired, hbad⟩ := hcrc <;> simp_all [causeCode]
    · simp_all [causeCode]
    · simp_all [causeCode]
    · simp_all [causeCode]
    · simp_all [causeCode]
    · cases crcok <;> simp_all [causeCode]
  · rw [validateResponse_status]
    exact acceptOf_iff_causeCode ..

end Sys2Proof.Machine
end

section
/-! VALIDATE (R152): what it leaves in each flag, the echo checks (R154), the completion actions (R157, R158), and
what its result depends on (R159). -/

namespace Sys2Proof.Machine

/-! ## The flags VALIDATE leaves (R152) -/

section
variable (r : List Byte) (s : State)

@[simp] theorem validateResponse_vdone : (validateResponse r s).status.vdone = true := by
  rw [validateResponse_status]; rfl

@[simp] theorem validateResponse_nodata : (validateResponse r s).status.nodata = (splitFrame r).nodata := by
  rw [validateResponse_status]; rfl

@[simp] theorem validateResponse_crcok : (validateResponse r s).status.crcok = (splitFrame r).crcok := by
  rw [validateResponse_status]; rfl

@[simp] theorem validateResponse_fcok : (validateResponse r s).status.fcok = fcEcho s (splitFrame r) := by
  rw [validateResponse_status]; rfl

@[simp] theorem validateResponse_addrok : (validateResponse r s).status.addrok = addrEcho s (splitFrame r) := by
  rw [validateResponse_status]; rfl

@[simp] theorem validateResponse_accept : (validateResponse r s).status.accept = accepts s (splitFrame r) := by
  rw [validateResponse_status]; rfl

@[simp] theorem validateResponse_cause : (validateResponse r s).status.cause =
    causeOf s.params.strictCrcRead s.ctx.op (splitFrame r).nodata (splitFrame r).crcok (fcEcho s (splitFrame r))
      (addrEcho s (splitFrame r)) (splitFrame r).plen := by
  rw [validateResponse_status]; rfl

@[simp] theorem validateResponse_errArg : (validateResponse r s).status.errArg = s.status.errArg := by
  rw [validateResponse_status]; rfl

@[simp] theorem validateResponse_errIll : (validateResponse r s).status.errIll = s.status.errIll := by
  rw [validateResponse_status]; rfl

@[simp] theorem validateResponse_rxDrop : (validateResponse r s).status.rxDrop = s.status.rxDrop := by
  rw [validateResponse_status]; rfl

end

/-! ## The echo checks (R154) -/

theorem splitFrame_addr {r : List Byte} (h : 4 ≤ r.length) : (splitFrame r).addr = byteAt r 0 := by
  rw [splitFrame_long h]

theorem splitFrame_fc {r : List Byte} (h : 4 ≤ r.length) : (splitFrame r).fc = byteAt r 1 := by
  rw [splitFrame_long h]

theorem fcEcho_iff (s : State) (r : List Byte) :
    fcEcho s (splitFrame r) = true ↔ 4 ≤ r.length ∧ byteAt r 1 = s.ctx.expFc := by
  by_cases h : 4 ≤ r.length
  · simp [fcEcho, splitFrame_fc h, h]
  · simp [fcEcho, h, Nat.lt_of_not_le h]

theorem addrEcho_iff (s : State) (r : List Byte) :
    addrEcho s (splitFrame r) = true ↔ 4 ≤ r.length ∧ byteAt r 0 = s.ctx.expAddr := by
  by_cases h : 4 ≤ r.length
  · simp [addrEcho, splitFrame_addr h, h]
  · simp [addrEcho, h, Nat.lt_of_not_le h]

/-- No function code that a context holds has bit 7 set. -/
theorem bit7_of_mem_functionCodes {fc : Byte} (h : fc ∈ [0x00#8, 0x03#8, 0x04#8, 0x06#8, 0x42#8]) :
    fc.getLsbD 7 = false :=
  (by decide : ∀ c ∈ [0x00#8, 0x03#8, 0x04#8, 0x06#8, 0x42#8], c.getLsbD 7 = false) fc h

theorem expFc_beginExchange_mem (op : CtxOp) (a : Byte) (p : List Byte) (e : BitVec 18) (w : Half) (s : State) :
    (beginExchange op a p e w s).ctx.expFc ∈ [0x00#8, 0x03#8, 0x04#8, 0x06#8, 0x42#8] := by
  cases op <;> simp [functionCode]

/-- An accepted build command expects the echo of the first two bytes of its own frame. -/
theorem exec_expects_own_frame {i : Instr} {p : List Byte} (h : acceptedPrefix i = some p) (s : State) :
    ∃ t, exec i s = .next t ∧ p[0]? = some t.ctx.expAddr ∧ p[1]? = some t.ctx.expFc ∧
      t.ctx.expFc ∈ [0x00#8, 0x03#8, 0x04#8, 0x06#8, 0x42#8] := by
  cases i with
  | buildRa | buildRd | buildRe => cases h; exact ⟨_, rfl, rfl, rfl, expFc_beginExchange_mem ..⟩
  | buildWa a n =>
    obtain ⟨hv, hp⟩ := Option.ite_none_right_eq_some.1 h
    cases hp
    exact ⟨_, exec_buildWa_of_valid hv s, rfl, rfl, expFc_beginExchange_mem ..⟩
  | nop | crcInit | crcByte | rxClear | rxPush | validate | decode | srst => cases h

/-- Settles O31: the echo checks as comparisons; the error responses' bit 7 is in no expected code. -/
theorem echoCheckComparesBytes : Obligations.EchoCheckComparesBytes := by
  refine ⟨fun s r hr => ⟨_, exec_validate hr, ?_, ?_, fun hbit hexp => ?_⟩,
    fun i p s hp => exec_expects_own_frame hp s⟩
  · rw [validateResponse_fcok, fcEcho_iff]
  · rw [validateResponse_addrok, addrEcho_iff]
  · rw [validateResponse_fcok, ← Bool.not_eq_true, fcEcho_iff]
    rintro ⟨-, heq⟩
    rw [heq, bit7_of_mem_functionCodes hexp] at hbit
    cases hbit

/-! ## The whole effect (R152) -/

/-- What acceptance takes: a context, four bytes, and both echoes. -/
theorem checks_of_accepts {s : State} {r : List Byte} (h : accepts s (splitFrame r) = true) :
    s.ctx.op ≠ .none ∧ 4 ≤ r.length ∧ byteAt r 0 = s.ctx.expAddr ∧ byteAt r 1 = s.ctx.expFc := by
  obtain ⟨-, hctx, -, hfok, haok⟩ := (acceptOf_iff ..).1 h
  obtain ⟨hlen, hfc⟩ := (fcEcho_iff s r).1 hfok
  exact ⟨hctx, hlen, ((addrEcho_iff s r).1 haok).2, hfc⟩

theorem accepts_of_short {r : List Byte} (h : r.length < 4) (s : State) : accepts s (splitFrame r) = false := by
  rw [← Bool.not_eq_true]
  intro hacc
  obtain ⟨-, hlen, -, -⟩ := checks_of_accepts hacc
  omega

/-- A response too short to hold data changes no snapshot (R159 (a)). -/
theorem validateResponse_snap_of_short {r : List Byte} (h : r.length < 4) (s : State) :
    (validateResponse r s).snap = s.snap :=
  (validateResponse_of_not_read r fun ⟨_, hacc⟩ => by rw [accepts_of_short h] at hacc; cases hacc).1

/-- The example of R152: the response to BUILD_RE is the request's own frame, two bytes and their CRC. -/
theorem buildRe_exchange_validates (s : State) (h : ParamsOk s.params) :
    ∃ t, execSeq (.buildRe 0xF8 :: [0xF8, 0x42, 0xC2, 0x41].map .rxPush ++ [.validate]) s = .next t ∧
      t.status.nodata = false ∧ t.status.crcok = true ∧ t.status.fcok = true ∧
      t.status.addrok = true ∧ t.status.accept = true ∧ causeCode t.status.cause = 0 := by
  have hframe : ([0xF8, 0x42, 0xC2, 0x41] : List Byte) = buildFrame [0xF8, 0x42] := by
    obtain ⟨-, -, -, hcrc⟩ := crc16_example_requests
    rw [buildFrame, show crc16 [0xF8, 0x42] = 0x41C2#16 from hcrc]
    rfl
  have hlen : (buildFrame [0xF8, 0x42]).length = 4 := buildFrame_length _
  have hcap : 4 ≤ s.params.rxCap := le_trans (by decide) h.1
  obtain ⟨t, hrun, hctx, -, -⟩ :=
    execSeq_build_push_validate (i := .buildRe 0xF8) rfl (by decide) hlen.le (hlen.trans_le hcap)
  obtain ⟨haccept, hcrcok, hcause⟩ := status_validateResponse_buildFrame hctx [] (by decide) nofun
  rw [hframe]
  exact ⟨_, hrun, by simp, hcrcok, (validateResponse_fcok ..).trans (fcEcho_buildFrame hctx []),
    (validateResponse_addrok ..).trans (addrEcho_buildFrame hctx []), haccept, congrArg causeCode hcause⟩

/-- Settles O30: each flag, register and completion action by its rule. -/
theorem validateCompletes : Obligations.ValidateCompletes := by
  refine ⟨decodes_opcodeOf .validate fun _ => rfl, fun s r hr => ?_, buildRe_exchange_validates⟩
  have hexec := exec_validate hr
  refine ⟨_, hexec, validateResponse_vdone r s, validateResponse_nodata r s, validateResponse_crcok r s,
    validateResponse_fcok r s, validateResponse_addrok r s, validateResponse_accept r s,
    validateResponse_cause r s, validateResponse_verdict r s, validateResponse_of_ra r,
    validateResponse_of_not_ra r, validateResponse_of_read r, validateResponse_of_not_read r,
    validateResponse_crc r s, validateResponse_txbuf r s, validateResponse_txlen r s, validateResponse_ctx r s,
    validateResponse_rxlen r s, fun a => by simp [rxByte], validateResponse_rxbuf r s, validateResponse_errArg r s,
    validateResponse_errIll r s, validateResponse_rxDrop r s, validateResponse_params r s,
    validateResponse_hostEvents r s, fun hshort => ⟨by simpa using hshort, validateResponse_snap_of_short hshort s⟩,
    fun hfour => by simp [hfour], fun hop => ?_, exec_validate_idem hexec⟩
  rw [validateResponse_accept, accepts, hop]
  rfl

/-! ## The completion actions (R157, R158) -/

/-- Settles O34: the address action, and the payload length as the response's less five. -/
theorem addressResultLoads : Obligations.AddressResultLoads := by
  intro s r hop hr
  obtain ⟨hvalid, hresult⟩ := validateResponse_of_ra r hop
  rw [← validateResponse_accept] at hvalid
  refine ⟨_, exec_validate hr, fun ⟨hacc, hplen⟩ => ?_, fun hnot => ?_, fun hlen => ?_, fun hlen => ?_, fun hlen => ?_⟩
  · have hset : (validateResponse r s).status.addrValid = true := by rw [hvalid, hacc, decide_eq_true hplen]; rfl
    rw [hresult, hset]
    exact ⟨be16_toNat _ _, rfl⟩
  · have hclear : (validateResponse r s).status.addrValid = false := by
      rw [hvalid, ← Bool.not_eq_true, Bool.and_eq_true, decide_eq_true_iff]
      exact hnot
    rw [hresult, hclear]
    exact ⟨rfl, rfl⟩
  · rw [splitFrame_plen]
    omega
  · rw [splitFrame_plen, hlen]
  · have hplen : ¬ 2 ≤ (splitFrame r).plen := by rw [splitFrame_plen]; omega
    rw [hvalid, decide_eq_false hplen, Bool.and_false]

theorem bytesFrom_splitFrame_plen (r : List Byte) :
    bytesFrom r 3 (3 + (splitFrame r).plen) = (r.drop 3).take (r.length - 5) := by
  rw [bytesFrom, splitFrame_plen, Nat.add_sub_cancel_left]

/-- Settles O35: the snapshot action, and what acceptance takes. -/
theorem readCompletionDecodes : Obligations.ReadCompletionDecodes := by
  intro s r hop hr
  refine ⟨_, exec_validate hr, fun hacc => ?_, fun hrej => ?_, fun hbad => ?_⟩
  · rw [validateResponse_accept] at hacc
    rw [← bytesFrom_splitFrame_plen]
    exact validateResponse_of_read r ⟨hop, hacc⟩
  · rw [validateResponse_accept] at hrej
    exact validateResponse_of_not_read r fun ⟨_, hacc⟩ => by rw [hrej] at hacc; cases hacc
  · rw [validateResponse_accept, ← Bool.not_eq_true]
    intro hacc
    obtain ⟨-, hlen, haddr, hfc⟩ := checks_of_accepts hacc
    rcases hbad with hshort | hne | hne
    · omega
    · exact hne haddr
    · exact hne hfc

/-! ## What the result depends on (R159) -/

section
variable {s s' : State} (hctx : s.ctx = s'.ctx)
include hctx

theorem fcEcho_congr : fcEcho s = fcEcho s' := by
  funext sp
  rw [fcEcho, fcEcho, hctx]

theorem addrEcho_congr : addrEcho s = addrEcho s' := by
  funext sp
  rw [addrEcho, addrEcho, hctx]

/-- Acceptance rests on the context and STRICT_CRC_READ. -/
theorem accepts_congr (hstrict : s.params.strictCrcRead = s'.params.strictCrcRead) : accepts s = accepts s' := by
  funext sp
  rw [accepts, accepts, fcEcho_congr hctx, addrEcho_congr hctx, hctx, hstrict]

end

/-- VALIDATE of a response under RA gives the same address result in any two states that accept alike. -/
theorem validateResponse_addrResult_congr (r : List Byte) {s s' : State} (hop : s.ctx.op = .ra)
    (hop' : s'.ctx.op = .ra) (hacc : accepts s = accepts s') :
    (validateResponse r s).addrResult = (validateResponse r s').addrResult ∧
    (validateResponse r s).status.addrValid = (validateResponse r s').status.addrValid := by
  obtain ⟨hvalid, hresult⟩ := validateResponse_of_ra r hop
  obtain ⟨hvalid', hresult'⟩ := validateResponse_of_ra r hop'
  have hsame : (validateResponse r s).status.addrValid = (validateResponse r s').status.addrValid := by
    rw [hvalid, hvalid', hacc]
  exact ⟨by rw [hresult, hresult', hsame], hsame⟩

/-- Settles O36: a short response is not accepted, VALIDATE leaves what it reads, and each thing it writes is a
function of that. -/
theorem validatorProperties : Obligations.ValidatorProperties := by
  refine ⟨fun s r hr hshort => ?_, fun s t h => ?_, fun s s' r hr hr' hctx hstrict => ?_⟩
  · have hacc := accepts_of_short hshort s
    refine ⟨_, exec_validate hr, (validateResponse_accept r s).trans hacc, validateResponse_snap_of_short hshort s,
      fun hop => (validateResponse_of_not_ra r hop).symm, fun hop => ?_⟩
    obtain ⟨hvalid, hresult⟩ := validateResponse_of_ra r hop
    rw [hacc, Bool.false_and] at hvalid
    rw [hvalid] at hresult
    exact ⟨hvalid, hresult⟩
  · obtain ⟨r, -, rfl⟩ := (withRxBytes_next_iff ..).1 h
    exact ⟨validateResponse_rxbuf r s, validateResponse_rxlen r s, validateResponse_ctx r s, exec_validate_idem h⟩
  · have hfc := fcEcho_congr hctx
    have haddr := addrEcho_congr hctx
    have hacc := accepts_congr hctx hstrict
    refine ⟨_, _, exec_validate hr, exec_validate hr', by simp, by simp, by simp, by simp [hfc], by simp [haddr],
      by simp [hacc], by simp, by simp [hfc, haddr, hctx, hstrict], fun hop => ?_, fun hop hread => ?_⟩
    · exact validateResponse_addrResult_congr r hop (hctx ▸ hop) hacc
    · rw [validateResponse_accept] at hread
      obtain ⟨hsnap, halarm⟩ := validateResponse_of_read r ⟨hop, hread⟩
      obtain ⟨hsnap', halarm'⟩ := validateResponse_of_read r (s := s') ⟨hctx ▸ hop, hacc ▸ hread⟩
      exact ⟨by rw [hsnap, hsnap', hctx], by rw [halarm, halarm', hctx]⟩

end Sys2Proof.Machine
end

section
/-! The decoder (43_decoder.md): where a payload lands in the decode buffer (R180), the fields as numbers of its bytes
(R181), the DECODE command (R184), the engineering values (R185), and what each field depends on (R186). -/

namespace Sys2Proof.Machine

/-! ## Fill (R180) -/

section
variable (p : List Byte) (s : Half)

/-- Byte `i` of the decode buffer is the payload byte that lands there, 0x00 where none does. -/
theorem byteAt_fill {i : Nat} (hi : i < 20) : byteAt (fill p s) i = (landed p s i).getD 0x00 := by
  rw [byteAt, List.getD_eq_getElem _ _ ((fill_length p s).symm ▸ hi), landed]
  simp only [fill, List.getElem_map, List.getElem_range]
  by_cases hoff : 2 * s.toNat ≤ i
  · have hblock : ¬ regBlockBytes ≤ 2 * s.toNat := Nat.not_le.2 (Nat.lt_of_le_of_lt hoff hi)
    rw [if_neg hblock, if_pos hoff, regBlockBytes]
    by_cases hin : i - 2 * s.toNat < p.length
    · rw [if_pos (by omega)]
      exact List.getD_eq_getElem?_getD ..
    · rw [if_neg (by omega), List.getElem?_eq_none (Nat.le_of_not_lt hin)]
      rfl
  · rw [if_neg hoff, if_neg fun h => hoff h.1]
    rfl

/-- Nothing of the empty payload lands anywhere. -/
theorem fill_nil : fill [] s = List.replicate 20 0x00 := by
  simp [fill, byteAt, regBlockBytes]

variable {p s} {q : List Byte}

/-- The buffer is determined by the bytes that land in it. -/
theorem fill_congr (h : ∀ i < 20, landed p s i = landed q s i) : fill p s = fill q s := by
  refine List.ext_getElem ((fill_length p s).trans (fill_length q s).symm) fun i hi hi' => ?_
  have hlt : i < 20 := (fill_length p s) ▸ hi
  rw [← List.getD_eq_getElem _ 0 hi, ← List.getD_eq_getElem _ 0 hi']
  exact (byteAt_fill p s hlt).trans ((congrArg (·.getD 0x00) (h i hlt)).trans (byteAt_fill q s hlt).symm)

/-- A start register beyond the block lets nothing land in it. -/
theorem fill_of_start_ge (h : 10 ≤ s.toNat) : fill p s = List.replicate 20 0x00 := by
  rw [← fill_nil s]
  refine fill_congr fun i hi => ?_
  have hoff : ¬ 2 * s.toNat ≤ i := by omega
  rw [landed, landed, if_neg hoff, if_neg hoff]

/-- Payload bytes beyond the block do not land. -/
theorem fill_take : fill (p.take (20 - 2 * s.toNat)) s = fill p s := by
  refine fill_congr fun i hi => ?_
  rw [landed, landed]
  split_ifs with hoff
  · exact List.getElem?_take_of_lt (by omega)
  · rfl

/-- A single payload byte is the upper byte of the start register (R184). -/
theorem regOf_fill_singleton (x : Byte) (h : s.toNat < 10) :
    regOf (fill [x] s) s.toNat = x.setWidth 16 <<< 8 := by
  have hfirst : byteAt (fill [x] s) (2 * s.toNat) = x := by
    rw [byteAt_fill _ _ (by omega)]
    simp [landed]
  have hsecond : byteAt (fill [x] s) (2 * s.toNat + 1) = 0 := by
    rw [byteAt_fill _ _ (by omega)]
    simp [landed]
  rw [regOf, hfirst, hsecond]
  exact BitVec.or_zero

end

/-- Settles O37: each byte by where it lands, and the start registers from which nothing does. -/
theorem fillPlacesPayload : Obligations.FillPlacesPayload := fun p s =>
  ⟨fill_length p s, fun _ hi => byteAt_fill p s hi, fill_of_start_ge⟩

/-! ## The fields as numbers (R181, R182) -/

/-- A register is big-endian. -/
theorem regOf_toNat (buf : List Byte) (j : Nat) :
    (regOf buf j).toNat = 256 * (byteAt buf (2 * j)).toNat + (byteAt buf (2 * j + 1)).toNat :=
  be16_toNat _ _

/-- A pair of registers as a number of its four bytes. -/
theorem regPair_toNat_bytes (buf : List Byte) (k : Nat) :
    (regPair buf k).toNat =
      256 * (byteAt buf (2 * k)).toNat + (byteAt buf (2 * k + 1)).toNat +
        65536 * (256 * (byteAt buf (2 * (k + 1))).toNat + (byteAt buf (2 * (k + 1) + 1)).toNat) := by
  rw [regPair_toNat, regOf_toNat, regOf_toNat]
  omega

/-- Settles O38: a register or a pair of registers for each field, and the alarm from the last register. -/
theorem decodeComposesFields : Obligations.DecodeComposesFields := by
  intro p s reg d
  have hal : d.fields.rawAl.toNat = reg 9 := regOf_toNat _ 9
  refine ⟨regOf_toNat _ 0, regPair_toNat_bytes _ 1, regPair_toNat_bytes _ 3, regPair_toNat_bytes _ 5,
    regOf_toNat _ 7, regOf_toNat _ 8, hal, ?_⟩
  rw [decodePayload_alarm_iff, ← BitVec.toNat_inj, hal]
  exact Iff.rfl

/-! ## DECODE (R184) -/

/-- An all-zero decode buffer has all-zero fields and no alarm. -/
theorem decodePayload_of_fill_zeros {p : List Byte} {s : Half} (h : fill p s = List.replicate 20 0x00) :
    decodePayload p s = ⟨⟨0, 0, 0, 0, 0, 0, 0⟩, false⟩ := by
  rw [decodePayload, h]
  decide

/-- With nothing received, or from a start register beyond the block, DECODE decodes an all-zero buffer. -/
theorem fill_zeros_of_corner {s : State} {r : List Byte} {start : Half} (hr : rxBytes s = .ok r)
    (h : s.rxlen = 0 ∨ 10 ≤ start.toNat) : fill r start = List.replicate 20 0x00 := by
  rcases h with hempty | hstart
  · rw [rxBytes_of_rxlen_zero hempty] at hr
    cases hr
    exact fill_nil start
  · exact fill_of_start_ge hstart

/-- The example of R184: the bytes 08 F5 received and decoded at register 7 are frequency 2293. -/
theorem execSeq_rxLoad_decode_example {s : State} (h : 2 ≤ pushLimit s) :
    ∃ t, execSeq (rxLoad [0x08, 0xF5] ++ [.decode 7]) s = .next t ∧ t.snap = ⟨0, 0, 0, 0, 2293, 0, 0⟩ := by
  obtain ⟨t, hrun, hbytes, -⟩ := rxLoadStoresBytes s [0x08, 0xF5]
  rw [List.take_of_length_le h] at hbytes
  have hsnap : (decodePayload [0x08, 0xF5] 7).fields = ⟨0, 0, 0, 0, 2293, 0, 0⟩ := by decide
  refine ⟨snapWrite (decodePayload [0x08, 0xF5] 7) t, ?_, hsnap⟩
  rw [execSeq_append_of_next hrun, execSeq, exec_decode hbytes]
  rfl

/-- Settles O40: DECODE is one snapshot write of what its payload decodes to; the corner cases are Fill's. -/
theorem decodeCompletes : Obligations.DecodeCompletes := by
  refine ⟨decodes_opcodeOf (.decode 0) fun w => congrArg Instr.decode (fieldL_eq w), fun s start r hr => ?_,
    fun x start hstart => regOf_fill_singleton x hstart, fun s h => execSeq_rxLoad_decode_example h⟩
  refine ⟨_, exec_decode hr start, rfl, rfl, rfl, fun _ => rfl, fun hcorner => ?_, ?_⟩
  · have hzero := decodePayload_of_fill_zeros (fill_zeros_of_corner hr hcorner)
    exact ⟨congrArg Decoded.fields hzero, congrArg Decoded.alarm hzero⟩
  · exact congrArg (fun buf => (decodeBuffer buf).fields) fill_take.symm

/-! ## What each field depends on (R186) -/

section
variable {p q : List Byte} {s : Half}

/-- A register depends on the two payload bytes that land in it. -/
theorem regOf_fill_congr {j : Nat} (hj : j < 10)
    (h : ∀ i, 2 * j ≤ i → i < 2 * j + 2 → landed p s i = landed q s i) :
    regOf (fill p s) j = regOf (fill q s) j := by
  have hbyte (i : Nat) (hlo : 2 * j ≤ i) (hhi : i < 2 * j + 2) : byteAt (fill p s) i = byteAt (fill q s) i := by
    rw [byteAt_fill p s (by omega), byteAt_fill q s (by omega), h i hlo hhi]
  rw [regOf, regOf, hbyte (2 * j) (by omega) (by omega), hbyte (2 * j + 1) (by omega) (by omega)]

/-- A pair of registers depends on the four payload bytes that land in it. -/
theorem regPair_fill_congr {k : Nat} (hk : k < 9)
    (h : ∀ i, 2 * k ≤ i → i < 2 * k + 4 → landed p s i = landed q s i) :
    regPair (fill p s) k = regPair (fill q s) k := by
  have hlow : regOf (fill p s) k = regOf (fill q s) k :=
    regOf_fill_congr (by omega) fun i hlo hhi => h i hlo (by omega)
  have hhigh : regOf (fill p s) (k + 1) = regOf (fill q s) (k + 1) :=
    regOf_fill_congr (by omega) fun i hlo hhi => h i (by omega) (by omega)
  rw [regPair, regPair, hlow, hhigh]

end

/-- Settles O41: the values at fixed payloads by evaluation, the dependence of each field by its registers. -/
theorem decoderProperties : Obligations.DecoderProperties := by
  refine ⟨decodePayload_of_fill_zeros (fill_nil 0), by decide, by decide, by decide, decodePayload_alarm_iff,
    fun p q s => ⟨regOf_fill_congr (j := 0) (by decide), regPair_fill_congr (k := 1) (by decide),
      regPair_fill_congr (k := 3) (by decide), regPair_fill_congr (k := 5) (by decide),
      regOf_fill_congr (j := 7) (by decide), regOf_fill_congr (j := 8) (by decide), fun h => ?_⟩⟩
  have hlast : regOf (fill p s) 9 = regOf (fill q s) 9 := regOf_fill_congr (by decide) h
  exact ⟨hlast, congrArg alarmOf hlast⟩

/-! ## The engineering values (R185) -/

/-- Settles O43: no divisor is zero, so multiplying by it undoes the division. -/
theorem engineeringValuesExact : Obligations.EngineeringValuesExact := fun _ =>
  ⟨div_mul_cancel₀ _ (by decide), div_mul_cancel₀ _ (by decide), div_mul_cancel₀ _ (by decide), rfl,
    div_mul_cancel₀ _ (by decide), div_mul_cancel₀ _ (by decide)⟩

end Sys2Proof.Machine
end

section
/-! The control commands: an illegal command (44_control.md R202) and NOP (R200). -/

namespace Sys2Proof.Machine

/-! ## The illegal command (R74, R202) -/

/-- The ranges of R202 are the complement of the opcode map (R72). -/
theorem illegalOpcode_iff (o : Byte) : illegalOpcode o.toNat ↔ o ∉ definedOpcodes := by
  simp only [definedOpcodes, List.mem_cons, List.not_mem_nil, or_false]
  bv_omega

/-- A word that is rejected runs as an illegal command. -/
theorem runWord_of_reject {w : Command} {e : DecodeReject} (h : decode w = .error e) (s : State) :
    runWord w s = execIllegal s := by
  simp [runWord, h]

/-- A word of an illegal opcode, issued next, has the effect of R202. -/
theorem step_issueNext_of_illegalOpcode {w : Command} (h : illegalOpcode (fieldOpc w).toNat) (s : State) :
    step (issueNext w s) = execIllegal s := by
  rw [step_of_hostEvents (s := issueNext w s) rfl]
  exact runWord_of_reject (decode_of_not_mem_definedOpcodes ((illegalOpcode_iff _).1 h)) s

/-- No check of R156 reports cause 7, so a VALIDATE overwrites it. -/
theorem causeOf_ne_illegalCommand (strict : Bool) (op : CtxOp) (nodata crcok fok aok : Bool) (plen : Nat) :
    causeOf strict op nodata crcok fok aok plen ≠ .illegalCommand := by
  rw [causeOf]
  split_ifs <;> decide

/-- Settles O8: the step by the decoder's rejection of the opcode, VALIDATE by the flags and the cause it leaves. -/
theorem illegalCommandEffect : Obligations.IllegalCommandEffect := by
  refine ⟨fun w s h => ?_, rfl, by decide +kernel, illegalOpcode_iff, fun s r hill hr => ?_, fun s => ?_⟩
  · rw [← fieldOpc_eq] at h
    exact step_issueNext_of_illegalOpcode h s
  · refine ⟨_, exec_validate hr, (validateResponse_errIll r s).trans hill, ?_⟩
    rw [validateResponse_cause]
    apply causeOf_ne_illegalCommand
  · exact ⟨_, step_issueNext_of_illegalOpcode (by decide) s, rfl, rfl⟩

/-! ## NOP (R200) -/

/-- Settles O9: NOP's arm keeps the state, and the zero word decodes to it. -/
theorem nopCompletes : Obligations.NopCompletes :=
  ⟨decodes_opcodeOf .nop fun _ => rfl, fun _ => rfl, step_issueNext (i := .nop) rfl⟩

end Sys2Proof.Machine
end

section
/-! Exceptions (60_exceptions.md): the idle step (R220) and the writers of CAUSE (R210). -/

namespace Sys2Proof.Machine

/-- Settles O7: there is no event to take, so the step runs none. -/
theorem idleStepKeepsState : Obligations.IdleStepKeepsState := by
  intro s hidle
  have hnone : takeEvent s = none := by simp [takeEvent, hidle]
  simp [step, hnone]

/-- Settles O52: each effect that writes CAUSE belongs to a command the statement leaves out. -/
theorem causeWriters : Obligations.CauseWriters := by
  intro i s t h hbuild hvalidate hsrst
  cases (exec_next_iff i s t).1 h with
  | begin hb | reject hb => exact absurd (hb.symm.trans hbuild) (by decide)
  | validate => exact absurd rfl hvalidate
  | srst => exact absurd rfl hsrst
  | nop | crcInit | crcByte | rxClear | append | drop | decode => rfl

end Sys2Proof.Machine
end
